-- ==== Sys2Proof/Word.lean ====
section
/-! DEFINITION. The word types of the core: bytes, 16-bit words and the fields of an instruction word. -/

namespace Sys2Proof

/-- A byte: a general register, a timer, a memory cell, the immediate NN (10_state.md R32, 20_memory.md R80). -/
abbrev Byte := BitVec 8

/-- A 16-bit word: the program counter, the index register, a stack entry, an instruction word. -/
abbrev Word := BitVec 16

/-- The 12-bit address immediate NNN (30_encoding.md R121). -/
abbrev Addr := BitVec 12

/-- The number of a general register, a 4-bit field X or Y (30_encoding.md R121). -/
abbrev RegIx := Fin 16

/-- The sprite row count N, 0 to 15 (30_encoding.md R121, R122). -/
abbrev RowCount := Fin 16

/-- The number of VF, the register that doubles as the flag register (10_state.md R34). -/
abbrev VF : RegIx := 15

end Sys2Proof
end

