-- ==== Sys2Proof/Syntax.lean ====
section
/-! DEFINITION. The 35 instructions, one constructor for each row of spec/opcode_table.json. Constructors are named after
the conventional mnemonics of 30_encoding.md R140; the pattern is the instruction's identity. -/

namespace Sys2Proof

/-- The instruction set (30_encoding.md R123). `x`, `y` are the register fields, `nn`, `nnn` the immediates, `n` the row
count. -/
inductive Instr where
  /-- `00EE` RET, 40_control_flow.md R150. -/
  | ret
  /-- `0NNN` SYS addr, R151. -/
  | sys (nnn : Addr)
  /-- `1NNN` JP addr, R152. -/
  | jp (nnn : Addr)
  /-- `2NNN` CALL addr, R153. -/
  | call (nnn : Addr)
  /-- `3XNN` SE Vx, byte, R154. -/
  | seByte (x : RegIx) (nn : Byte)
  /-- `4XNN` SNE Vx, byte, R155. -/
  | sneByte (x : RegIx) (nn : Byte)
  /-- `5XY0` SE Vx, Vy, R156. -/
  | seReg (x y : RegIx)
  /-- `9XY0` SNE Vx, Vy, R157. -/
  | sneReg (x y : RegIx)
  /-- `BNNN` JP V0, addr, R158. -/
  | jpV0 (nnn : Addr)
  /-- `6XNN` LD Vx, byte, 41_alu.md R200. -/
  | ldByte (x : RegIx) (nn : Byte)
  /-- `7XNN` ADD Vx, byte, R201. -/
  | addByte (x : RegIx) (nn : Byte)
  /-- `8XY0` LD Vx, Vy, R202. -/
  | ldReg (x y : RegIx)
  /-- `8XY1` OR Vx, Vy, R203. -/
  | orReg (x y : RegIx)
  /-- `8XY2` AND Vx, Vy, R204. -/
  | andReg (x y : RegIx)
  /-- `8XY3` XOR Vx, Vy, R205. -/
  | xorReg (x y : RegIx)
  /-- `8XY4` ADD Vx, Vy, R206. -/
  | addReg (x y : RegIx)
  /-- `8XY5` SUB Vx, Vy, R207. -/
  | subReg (x y : RegIx)
  /-- `8XY6` SHR Vx, Vy, R208; `y` fills the ignored field (30_encoding.md R125). -/
  | shr (x y : RegIx)
  /-- `8XY7` SUBN Vx, Vy, R209. -/
  | subn (x y : RegIx)
  /-- `8XYE` SHL Vx, Vy, R210; `y` fills the ignored field (30_encoding.md R125). -/
  | shl (x y : RegIx)
  /-- `CXNN` RND Vx, byte, R211. -/
  | rnd (x : RegIx) (nn : Byte)
  /-- `ANNN` LD I, addr, 42_index_memory.md R250. -/
  | ldI (nnn : Addr)
  /-- `FX1E` ADD I, Vx, R251. -/
  | addI (x : RegIx)
  /-- `FX33` LD B, Vx, R252. -/
  | ldB (x : RegIx)
  /-- `FX55` LD [I], Vx, R253. -/
  | ldMem (x : RegIx)
  /-- `FX65` LD Vx, [I], R254. -/
  | ldRegs (x : RegIx)
  /-- `00E0` CLS, 43_display.md R290. -/
  | cls
  /-- `DXYN` DRW Vx, Vy, nibble, R291. -/
  | drw (x y : RegIx) (n : RowCount)
  /-- `FX29` LD F, Vx, R292. -/
  | ldF (x : RegIx)
  /-- `EX9E` SKP Vx, 44_input.md R330. -/
  | skp (x : RegIx)
  /-- `EXA1` SKNP Vx, R331. -/
  | sknp (x : RegIx)
  /-- `FX0A` LD Vx, K, R332. -/
  | ldKey (x : RegIx)
  /-- `FX07` LD Vx, DT, 45_timers.md R360. -/
  | ldVxDT (x : RegIx)
  /-- `FX15` LD DT, Vx, R361. -/
  | ldDT (x : RegIx)
  /-- `FX18` LD ST, Vx, R362. -/
  | ldST (x : RegIx)
  deriving DecidableEq, Repr

end Sys2Proof
end

