-- ==== Sys2Proof/WellFormed.lean ====
section
/-! DEFINITION. Which terms of `Instr` stand for a word. The types of the operands already hold every field to its width;
the one check left is that a `0NNN` is not one of the two words the table gives to CLS and RET. -/

namespace Sys2Proof

/-- The 0NNN row excludes the words 0x00E0 and 0x00EE (30_encoding.md R123, 40_control_flow.md R151: "op ∉ {0x00E0,
0x00EE}"). -/
def Addr.isSysTarget (nnn : Addr) : Bool := nnn != 0x0E0#12 && nnn != 0x0EE#12

/-- An instruction that some word encodes. -/
def Instr.wellFormed : Instr → Bool
  | .sys nnn => Addr.isSysTarget nnn
  | .ret | .cls => true
  | .jp _ | .call _ | .jpV0 _ | .ldI _ => true
  | .seByte _ _ | .sneByte _ _ | .ldByte _ _ | .addByte _ _ | .rnd _ _ => true
  | .seReg _ _ | .sneReg _ _ | .ldReg _ _ | .orReg _ _ | .andReg _ _ | .xorReg _ _ => true
  | .addReg _ _ | .subReg _ _ | .shr _ _ | .subn _ _ | .shl _ _ => true
  | .drw _ _ _ => true
  | .addI _ | .ldB _ | .ldMem _ | .ldRegs _ | .ldF _ => true
  | .skp _ | .sknp _ | .ldKey _ | .ldVxDT _ | .ldDT _ | .ldST _ => true

end Sys2Proof
end

