-- ==== Sys2Proof/Decode.lean ====
section
/-! DEFINITION. The decoder, total on any bytes and rejecting by name, and after it the encoder written from the same
table (30_encoding.md R120 to R126). -/

namespace Sys2Proof

/-! ## Bytes and words -/

/-- The word of two consecutive bytes, the byte at the lower address being bits 15:8 (20_memory.md R89). -/
def wordOfBytes (hi lo : Byte) : Word := BitVec.ofNat 16 (hi.toNat * 256 + lo.toNat)

/-- Bits 15:8 of a word, the byte stored at the lower address (20_memory.md R89). -/
def highByte (w : Word) : Byte := BitVec.ofNat 8 (w.toNat / 256)

/-- Bits 7:0 of a word. -/
def lowByte (w : Word) : Byte := BitVec.ofNat 8 w.toNat

/-! ## Fields (30_encoding.md R121) -/

/-- The group, `op[15:12]`. -/
def groupField (w : Word) : Nat := w.toNat / 4096

/-- X, `op[11:8]`. -/
def xField (w : Word) : RegIx := Fin.ofNat 16 (w.toNat / 256)

/-- Y, `op[7:4]`. -/
def yField (w : Word) : RegIx := Fin.ofNat 16 (w.toNat / 16)

/-- N, `op[3:0]`. -/
def nField (w : Word) : RowCount := Fin.ofNat 16 w.toNat

/-- NN, `op[7:0]`. -/
def nnField (w : Word) : Byte := BitVec.ofNat 8 w.toNat

/-- NNN, `op[11:0]`. -/
def nnnField (w : Word) : Addr := BitVec.ofNat 12 w.toNat

/-! ## Decode -/

/-- Why no instruction was read. -/
inductive DecodeError where
  /-- Fewer than the two bytes of an instruction were given. Raised by `decode`, never in a step. -/
  | truncated
  /-- The word matches no row of the table (30_encoding.md R124): a step takes `UnimplementedOpcode`. -/
  | unimplemented (opcode : Word)
  deriving DecidableEq, Repr

/-- Group 0x0: two whole words, every other word is a jump (30_encoding.md R123, 90_conflicts.md C4). -/
def decodeGroup0 (w : Word) : Instr :=
  if w = 0x00E0#16 then .cls
  else if w = 0x00EE#16 then .ret
  else .sys (nnnField w)

/-- Group 0x8: nine sub-opcodes in N (30_encoding.md R123). -/
def decodeGroup8 (w : Word) : Except DecodeError Instr :=
  match (nField w).val with
  | 0x0 => .ok (.ldReg (xField w) (yField w))
  | 0x1 => .ok (.orReg (xField w) (yField w))
  | 0x2 => .ok (.andReg (xField w) (yField w))
  | 0x3 => .ok (.xorReg (xField w) (yField w))
  | 0x4 => .ok (.addReg (xField w) (yField w))
  | 0x5 => .ok (.subReg (xField w) (yField w))
  | 0x6 => .ok (.shr (xField w) (yField w))
  | 0x7 => .ok (.subn (xField w) (yField w))
  | 0xE => .ok (.shl (xField w) (yField w))
  | _ => .error (.unimplemented w)

/-- Group 0xE: two sub-opcodes in NN (30_encoding.md R123). -/
def decodeGroupE (w : Word) : Except DecodeError Instr :=
  match (nnField w).toNat with
  | 0x9E => .ok (.skp (xField w))
  | 0xA1 => .ok (.sknp (xField w))
  | _ => .error (.unimplemented w)

/-- Group 0xF: nine sub-opcodes in NN (30_encoding.md R123). -/
def decodeGroupF (w : Word) : Except DecodeError Instr :=
  match (nnField w).toNat with
  | 0x07 => .ok (.ldVxDT (xField w))
  | 0x0A => .ok (.ldKey (xField w))
  | 0x15 => .ok (.ldDT (xField w))
  | 0x18 => .ok (.ldST (xField w))
  | 0x1E => .ok (.addI (xField w))
  | 0x29 => .ok (.ldF (xField w))
  | 0x33 => .ok (.ldB (xField w))
  | 0x55 => .ok (.ldMem (xField w))
  | 0x65 => .ok (.ldRegs (xField w))
  | _ => .error (.unimplemented w)

/-- The instruction of a word, dispatched first by the high nibble (30_encoding.md R123); a word no row matches is
rejected (R124). A word's group is below 16, so the last arm is never taken. -/
def decodeWord (w : Word) : Except DecodeError Instr :=
  match groupField w with
  | 0x0 => .ok (decodeGroup0 w)
  | 0x1 => .ok (.jp (nnnField w))
  | 0x2 => .ok (.call (nnnField w))
  | 0x3 => .ok (.seByte (xField w) (nnField w))
  | 0x4 => .ok (.sneByte (xField w) (nnField w))
  | 0x5 => if nField w = 0 then .ok (.seReg (xField w) (yField w)) else .error (.unimplemented w)
  | 0x6 => .ok (.ldByte (xField w) (nnField w))
  | 0x7 => .ok (.addByte (xField w) (nnField w))
  | 0x8 => decodeGroup8 w
  | 0x9 => if nField w = 0 then .ok (.sneReg (xField w) (yField w)) else .error (.unimplemented w)
  | 0xA => .ok (.ldI (nnnField w))
  | 0xB => .ok (.jpV0 (nnnField w))
  | 0xC => .ok (.rnd (xField w) (nnField w))
  | 0xD => .ok (.drw (xField w) (yField w) (nField w))
  | 0xE => decodeGroupE w
  | 0xF => decodeGroupF w
  | _ => .error (.unimplemented w)

/-- The instruction at the head of a byte sequence, and the bytes after it. Every instruction is two bytes
(30_encoding.md R120). -/
def decode : List Byte → Except DecodeError (Instr × List Byte)
  | hi :: lo :: rest =>
    match decodeWord (wordOfBytes hi lo) with
    | .ok i => .ok (i, rest)
    | .error e => .error e
  | _ => .error .truncated

/-- The instruction of an opcode-table word: its bits below `nbits`, laid out big-endian as the hardware stores them. -/
def decodeTableWord (nbits w : Nat) : Option Instr :=
  let word : Word := BitVec.ofNat 16 (w % 2 ^ nbits)
  match decode [highByte word, lowByte word] with
  | .ok (i, _) => some i
  | .error _ => none

/-! ## Encode -/

/-- The layout `gggg nnnn nnnn nnnn` (30_encoding.md R122, format NNN). -/
def packNNN (group : Nat) (nnn : Addr) : Word := BitVec.ofNat 16 (group * 4096 + nnn.toNat)

/-- The layout `gggg xxxx nnnn nnnn` (format XNN); with a fixed low byte it is format X. -/
def packXNN (group : Nat) (x : RegIx) (nn : Byte) : Word :=
  BitVec.ofNat 16 (group * 4096 + x.val * 256 + nn.toNat)

/-- The layout `gggg xxxx yyyy nnnn` (format XYN); with a fixed low nibble it is format XY. -/
def packXYN (group : Nat) (x y : RegIx) (n : RowCount) : Word :=
  BitVec.ofNat 16 (group * 4096 + x.val * 256 + y.val * 16 + n.val)

/-- The word of an instruction (30_encoding.md R122, R123). -/
def encode : Instr → Word
  | .cls => 0x00E0#16
  | .ret => 0x00EE#16
  | .sys nnn => packNNN 0x0 nnn
  | .jp nnn => packNNN 0x1 nnn
  | .call nnn => packNNN 0x2 nnn
  | .seByte x nn => packXNN 0x3 x nn
  | .sneByte x nn => packXNN 0x4 x nn
  | .seReg x y => packXYN 0x5 x y 0x0
  | .ldByte x nn => packXNN 0x6 x nn
  | .addByte x nn => packXNN 0x7 x nn
  | .ldReg x y => packXYN 0x8 x y 0x0
  | .orReg x y => packXYN 0x8 x y 0x1
  | .andReg x y => packXYN 0x8 x y 0x2
  | .xorReg x y => packXYN 0x8 x y 0x3
  | .addReg x y => packXYN 0x8 x y 0x4
  | .subReg x y => packXYN 0x8 x y 0x5
  | .shr x y => packXYN 0x8 x y 0x6
  | .subn x y => packXYN 0x8 x y 0x7
  | .shl x y => packXYN 0x8 x y 0xE
  | .sneReg x y => packXYN 0x9 x y 0x0
  | .ldI nnn => packNNN 0xA nnn
  | .jpV0 nnn => packNNN 0xB nnn
  | .rnd x nn => packXNN 0xC x nn
  | .drw x y n => packXYN 0xD x y n
  | .skp x => packXNN 0xE x 0x9E#8
  | .sknp x => packXNN 0xE x 0xA1#8
  | .ldVxDT x => packXNN 0xF x 0x07#8
  | .ldKey x => packXNN 0xF x 0x0A#8
  | .ldDT x => packXNN 0xF x 0x15#8
  | .ldST x => packXNN 0xF x 0x18#8
  | .addI x => packXNN 0xF x 0x1E#8
  | .ldF x => packXNN 0xF x 0x29#8
  | .ldB x => packXNN 0xF x 0x33#8
  | .ldMem x => packXNN 0xF x 0x55#8
  | .ldRegs x => packXNN 0xF x 0x65#8

/-- The two bytes of an instruction as memory holds them (20_memory.md R89). -/
def encodeBytes (i : Instr) : List Byte := [highByte (encode i), lowByte (encode i)]

/-! ## The opcode table's rows -/

/-- The match word of an instruction's row of spec/opcode_table.json. -/
def rowMatch : Instr → Word
  | .ret => 0x00EE#16 | .sys _ => 0x0000#16 | .jp _ => 0x1000#16 | .call _ => 0x2000#16
  | .seByte _ _ => 0x3000#16 | .sneByte _ _ => 0x4000#16 | .seReg _ _ => 0x5000#16 | .sneReg _ _ => 0x9000#16
  | .jpV0 _ => 0xB000#16 | .ldByte _ _ => 0x6000#16 | .addByte _ _ => 0x7000#16 | .ldReg _ _ => 0x8000#16
  | .orReg _ _ => 0x8001#16 | .andReg _ _ => 0x8002#16 | .xorReg _ _ => 0x8003#16 | .addReg _ _ => 0x8004#16
  | .subReg _ _ => 0x8005#16 | .shr _ _ => 0x8006#16 | .subn _ _ => 0x8007#16 | .shl _ _ => 0x800E#16
  | .rnd _ _ => 0xC000#16 | .ldI _ => 0xA000#16 | .addI _ => 0xF01E#16 | .ldB _ => 0xF033#16
  | .ldMem _ => 0xF055#16 | .ldRegs _ => 0xF065#16 | .cls => 0x00E0#16 | .drw _ _ _ => 0xD000#16
  | .ldF _ => 0xF029#16 | .skp _ => 0xE09E#16 | .sknp _ => 0xE0A1#16 | .ldKey _ => 0xF00A#16
  | .ldVxDT _ => 0xF007#16 | .ldDT _ => 0xF015#16 | .ldST _ => 0xF018#16

/-- The mask of an instruction's row of spec/opcode_table.json. -/
def rowMask : Instr → Word
  | .ret | .cls => 0xFFFF#16
  | .sys _ | .jp _ | .call _ | .jpV0 _ | .ldI _ => 0xF000#16
  | .seByte _ _ | .sneByte _ _ | .ldByte _ _ | .addByte _ _ | .rnd _ _ | .drw _ _ _ => 0xF000#16
  | .seReg _ _ | .sneReg _ _ | .ldReg _ _ | .orReg _ _ | .andReg _ _ | .xorReg _ _ => 0xF00F#16
  | .addReg _ _ | .subReg _ _ | .shr _ _ | .subn _ _ | .shl _ _ => 0xF00F#16
  | .addI _ | .ldB _ | .ldMem _ | .ldRegs _ | .ldF _ | .skp _ | .sknp _ => 0xF0FF#16
  | .ldKey _ | .ldVxDT _ | .ldDT _ | .ldST _ => 0xF0FF#16

end Sys2Proof
end

