-- ==== Sys2Proof/Config.lean ====
section
/-! DEFINITION. What the spec leaves to the implementation: the random byte of CXNN as a free value, and the mode
switch of 00_scope.md R10. The other open parameter, FONT, is carried by the state (Machine/State.lean, log entry 3). -/

namespace Sys2Proof

/-- RAND (00_scope.md R10, 41_alu.md R211): the byte of the n-th draw of CXNN. It has no body, so nothing can be proved
of it beyond its being a byte: "the model treats each draw as unconstrained". Safe; log entry 2. -/
opaque Config.randByte : Nat → Byte

/-- VF_DEST_MODE (00_scope.md R10): `sequential` executes a flag-writing word with X = F in the order of its statements;
`refuse` places it outside the model. `step` follows `sequential`, the default; `stepVfDest` of
Machine/HostPort.lean takes the mode. DESIGN CHOICE; log entry 14. -/
inductive VfDestMode where
  | sequential
  | refuse
  deriving DecidableEq, Repr

end Sys2Proof
end

