-- ==== Sys2Proof/Machine/State.lean ====
section
/-! DEFINITION. The architectural state of the core as plain data (10_state.md R30), the faults it records, and the state
after reset (70_reset_and_hazards.md R450). -/

namespace Sys2Proof.Machine

/-- The direction of a memory access, recorded by `AddressOutOfRange` (60_exceptions.md R400). -/
inductive Direction where
  | read
  | write
  deriving DecidableEq, Repr

/-- The faults of the core, exactly those of 60_exceptions.md R400. A step that raises one answers the next state that
R407 and R408 describe, with `status` recording it; a step of a core that has already faulted stops with it (log
entry 1). -/
inductive Fault where
  /-- R401: an access to a zone not permitted for its direction, or at 0x1000 or above. Raised by fetch, DXYN, FX65
  (read) and FX33, FX55 (write). Safe: the spec's own fault. -/
  | addressOutOfRange (address : Nat) (direction : Direction)
  /-- R402: decode of an illegal word. Raised by the step. Safe: the spec's own fault. -/
  | unimplementedOpcode (opcode : Word) (programCounter : Word)
  /-- R403: a key index of 16 or more. Raised by EX9E and EXA1, and answered to the host by setKey and clearKey (R417).
  Safe: the spec's own fault. -/
  | invalidKeyIndex (index : Nat)
  /-- R404: a call with all 24 entries in use. Raised by 2NNN. Safe: the spec's fault for a case its source calls
  undefined (decision D8). -/
  | stackOverflow (programCounter : Word)
  /-- R405: a return with an empty stack. Raised by 00EE. Safe, as R404. -/
  | stackUnderflow (programCounter : Word)
  /-- R406: `I + VX` does not fit 16 bits. Raised by FX1E. Safe: the spec's fault for a case its source does not address
  (decision D12). -/
  | indexOverflow (programCounter : Word) (value : Nat)
  deriving DecidableEq, Repr

/-- The refusals. No meaning of an instruction answers one. -/
inductive Refusal where
  /-- An instruction that has no meaning yet. No arm of `exec` answers it: every instruction is modelled. Safe. -/
  | notModelled (mnemonic : String)
  /-- A flag-writing word with X = F under `VF_DEST_MODE = refuse` (00_scope.md R10, log entry 14). Raised by
  `stepVfDest .refuse` only, never by `step`. Safe: it only narrows what is claimed. -/
  | vfDestination
  deriving DecidableEq, Repr

/-- The run status (10_state.md R46). -/
inductive RunStatus where
  | running
  | faulted (f : Fault)
  deriving DecidableEq, Repr

/-- The stack pointer: "always holds an even value in [0, 48]" (10_state.md R42), so it is held as its half, the number of
live entries (log entry 7). -/
structure StackPointer where
  entries : Fin 25
  deriving DecidableEq, Repr

/-- SP as the spec counts it: a byte index (10_state.md R42). -/
def StackPointer.bytes (sp : StackPointer) : Nat := 2 * sp.entries.val

/-- The address space (20_memory.md R80, R81): the font bytes it was constructed with, and the bytes of the program zone
that differ from zero, in the canonical form `Memory.wf` of Machine/Ops.lean. -/
structure Memory where
  /-- The parameter FONT, bytes 0x000 to 0x04F (R85); fixed at construction. -/
  font : Vector Byte 80
  /-- (address, byte), addresses strictly rising, no byte equal to what an unlisted address reads as. -/
  cells : List Host.Cell
  deriving DecidableEq, Repr

/-- The state of the core (10_state.md R30 and 20_memory.md R80), and the model's own draw counter. -/
structure State where
  /-- V0 to VF (R32). -/
  v : Vector Byte 16
  /-- PC (R36). -/
  pc : Word
  /-- I (R40). -/
  i : Word
  /-- SP (R42). -/
  sp : StackPointer
  /-- The call stack (R41). -/
  stack : Vector Word 24
  /-- DT (R44). -/
  dt : Byte
  /-- ST (R44). -/
  st : Byte
  /-- The framebuffer, pixel (x, y) at index y * 64 + x (R45). -/
  fb : Vector Bool 2048
  /-- The framebuffer-changed flag (R47). -/
  dirty : Bool
  /-- KEY, the input latch (R48). -/
  keys : Vector Bool 16
  /-- The run status (R46). -/
  status : RunStatus
  /-- The address space (20_memory.md R80). -/
  mem : Memory
  /-- The model's own field, not the spec's: how many random bytes CXNN has drawn, restarts included (log entry 2). -/
  draws : Nat
  deriving DecidableEq, Repr

/-- The values decision D3 sets at reset, which `RESET_ZERO = false` leaves open (00_scope.md R10). A live stack entry among them
may be one no call pushes; what 00EE then does is log entry 9's. -/
structure ResetValues where
  v : Vector Byte 16
  i : Word
  sp : StackPointer
  stack : Vector Word 24
  dt : Byte
  st : Byte
  deriving DecidableEq, Repr

/-- `RESET_ZERO = true`: all zero (70_reset_and_hazards.md R450, the spec's decision D3). DESIGN CHOICE, unsafe; log
entry 4. -/
def ResetValues.zero : ResetValues where
  v := Vector.replicate 16 0
  i := 0
  sp := ⟨0⟩
  stack := Vector.replicate 24 0
  dt := 0
  st := 0

/-- Construction of the core (70_reset_and_hazards.md R450) for a FONT, the values of decision D3 and the number of bytes
RAND has already given. RAND is not core state (10_state.md R50), so construction does not set it back: a restart
(`HostOp.construct`) hands on the count it finds. DEDUCED, log entry 2. -/
def State.construct (font : Vector Byte 80) (r : ResetValues) (draws : Nat) : State where
  v := r.v
  pc := 0x200
  i := r.i
  sp := r.sp
  stack := r.stack
  dt := r.dt
  st := r.st
  fb := Vector.replicate 2048 false
  dirty := false
  keys := Vector.replicate 16 false
  status := .running
  mem := ⟨font, []⟩
  draws := draws

/-- The core right after reset, with no program loaded (70_reset_and_hazards.md R450), nothing drawn from RAND before. The
0 draws are the model's DESIGN CHOICE, log entry 2. -/
def State.reset : State := State.construct defaultFont ResetValues.zero 0

end Sys2Proof.Machine
end

