-- ==== Sys2Proof/Machine/Ops.lean ====
section
/-! DEFINITION. The named operations over memory, registers and the program counter, the taking of a fault, the fetch of
an instruction and the end of a step. -/

namespace Sys2Proof.Machine

/-- The outcome of one instruction. -/
abbrev Result := Host.Outcome State Fault Refusal

/-! ## The zones of the address space -/

/-- The four zones (20_memory.md R81). -/
inductive Zone where
  | font
  | reserved
  | program
  | dead
  deriving DecidableEq, Repr

/-- One row of the zone table: its addresses `first` to `last`, and what it permits. -/
structure Region where
  zone : Zone
  first : Nat
  last : Nat
  read : Bool
  write : Bool
  deriving DecidableEq, Repr

/-- The zone table (20_memory.md R81; the font zone's write column by 90_conflicts.md C3). -/
def regions : List Region :=
  [ ⟨.font, 0x000, 0x04F, true, false⟩,
    ⟨.reserved, 0x050, 0x1FF, true, false⟩,
    ⟨.program, 0x200, 0xE9F, true, true⟩,
    ⟨.dead, 0xEA0, 0xFFF, false, false⟩ ]

/-- The region of an address; none at 0x1000 and above (20_memory.md R82, R84). -/
def regionOf (a : Nat) : Option Region := regions.find? fun r => decide (r.first ≤ a) && decide (a ≤ r.last)

/-- Whether a read of the address is permitted (20_memory.md R82). -/
def readable (a : Nat) : Bool :=
  match regionOf a with
  | some r => r.read
  | none => false

/-- Whether a write of the address is permitted (20_memory.md R83). -/
def writable (a : Nat) : Bool :=
  match regionOf a with
  | some r => r.write
  | none => false

/-! ## The bytes of memory -/

/-- The byte listed for an address. -/
def lookupCell : List Host.Cell → Nat → Option Byte
  | [], _ => none
  | c :: cs, a => if c.1 = a then some c.2 else lookupCell cs a

/-- The list without an entry for the address. -/
def eraseCell (a : Nat) : List Host.Cell → List Host.Cell
  | [] => []
  | c :: cs => if c.1 = a then cs else c :: eraseCell a cs

/-- The list, addresses still rising, with the byte as the entry of the address. -/
def insertCell (a : Nat) (b : Byte) : List Host.Cell → List Host.Cell
  | [] => [(a, b)]
  | c :: cs =>
    if a < c.1 then (a, b) :: c :: cs
    else if a = c.1 then (a, b) :: cs
    else c :: insertCell a b cs

/-- What an unlisted address reads as: the FONT byte in the font zone, else 0 (70_reset_and_hazards.md R450; the zero of
the program zone is the spec's decision D5, log entry 6). -/
def Memory.unlisted (m : Memory) (a : Nat) : Byte := if h : a < 80 then m.font[a] else 0

/-- The byte an address holds. -/
def Memory.peek (m : Memory) (a : Nat) : Byte := (lookupCell m.cells a).getD (m.unlisted a)

/-- The memory with the byte at the address, in canonical form. -/
def Memory.poke (m : Memory) (a : Nat) (b : Byte) : Memory :=
  { m with cells := if b = m.unlisted a then eraseCell a m.cells else insertCell a b m.cells }

/-- The canonical form: addresses strictly rising, every listed address in the writable zone, no listed byte equal to what
an unlisted address reads as. -/
abbrev Memory.wf (m : Memory) : Prop :=
  m.cells.Pairwise (fun c d => c.1 < d.1) ∧ ∀ c ∈ m.cells, writable c.1 = true ∧ c.2 ≠ m.unlisted c.1

/-! ## Accesses by zone -/

/-- `MemRead(addr, 1)` (20_memory.md R82). -/
def readByte (s : State) (a : Nat) : Except Fault Byte :=
  if readable a then .ok (s.mem.peek a) else .error (.addressOutOfRange a .read)

/-- `MemWrite(addr, 1, v)` (20_memory.md R83): a rejected write changes nothing. -/
def writeByte (s : State) (a : Nat) (b : Byte) : Except Fault State :=
  if writable a then .ok { s with mem := s.mem.poke a b } else .error (.addressOutOfRange a .write)

/-- `n` reads in ascending order from `a`, the first rejected one ending them (20_memory.md R91, log entry 13). -/
def readBytes (s : State) (a : Nat) : Nat → Except Fault (List Byte)
  | 0 => .ok []
  | n + 1 =>
    match readByte s a with
    | .error f => .error f
    | .ok b =>
      match readBytes s (a + 1) n with
      | .error f => .error f
      | .ok bs => .ok (b :: bs)

/-- Writes in ascending order from `a`; those before a rejected one stay (20_memory.md R91, R92, log entry 13). -/
def storeBytes (a : Nat) : List Byte → State → State × Option Fault
  | [], s => (s, none)
  | b :: bs, s =>
    match writeByte s a b with
    | .error f => (s, some f)
    | .ok s' => storeBytes (a + 1) bs s'

/-! ## Registers -/

/-- `V[x]` (10_state.md R32). -/
def readReg (s : State) (x : RegIx) : Byte := s.v[x.val]

/-- `V[x] <- b` (10_state.md R32): no register is hard-wired. -/
def writeReg (s : State) (x : RegIx) (b : Byte) : State := { s with v := s.v.set x.val b }

/-- The registers V0 to Vx in order, the range FX55 and FX65 name (10_state.md R32). -/
def regsUpTo (x : RegIx) : List RegIx :=
  [0, 1, 2, 3, 4, 5, 6, 7, 8, 9, 10, 11, 12, 13, 14, 15].take (x.val + 1)

/-- Reads in ascending order from `a` into the listed registers; those loaded before a rejected read stay (20_memory.md
R91, R92, log entry 13). -/
def loadRegsFrom (a : Nat) : List RegIx → State → State × Option Fault
  | [], s => (s, none)
  | x :: xs, s =>
    match readByte s a with
    | .error f => (s, some f)
    | .ok b => loadRegsFrom (a + 1) xs (writeReg s x b)

/-! ## The program counter -/

/-- `PC <- PC + 2` (10_state.md R37). -/
def advance (s : State) : State := { s with pc := s.pc + 2 }

/-- `PC <- PC + 4` when the condition holds, else `PC <- PC + 2` (10_state.md R37). -/
def skipIf (c : Bool) (s : State) : State := { s with pc := if c then s.pc + 4 else s.pc + 2 }

/-- `PC <- target` (10_state.md R37). -/
def setPc (s : State) (target : Word) : State := { s with pc := target }

/-! ## Taking a fault -/

/-- Taking a fault (60_exceptions.md R407, R408, 00_scope.md R15): `status` records it, every change made before it stays,
PC still holds the faulting instruction's address, and nothing else happens. There is no return from it (R409). -/
def takeFault (f : Fault) (s : State) : Result := .next { s with status := .faulted f }

/-- The end of a memory transfer: the next instruction, or the fault the transfer stopped at. -/
def finishTransfer : State × Option Fault → Result
  | (s, none) => .next (advance s)
  | (s, some f) => takeFault f s

/-! ## The call stack (10_state.md R41, R42) -/

/-- A push writes `stack[SP / 2]` and adds 2 to SP; none when the stack is full. -/
def pushWord (s : State) (w : Word) : Option State :=
  if h : s.sp.entries.val < 24 then
    some { s with stack := s.stack.set s.sp.entries.val w, sp := ⟨⟨s.sp.entries.val + 1, by omega⟩⟩ }
  else none

/-- A pop subtracts 2 from SP and reads `stack[SP / 2]`, which it does not clear; none when the stack is empty. -/
def popWord (s : State) : Option (Word × State) :=
  if h : 0 < s.sp.entries.val then
    some (s.stack[s.sp.entries.val - 1], { s with sp := ⟨⟨s.sp.entries.val - 1, by omega⟩⟩ })
  else none

/-! ## The instruction cycle (30_encoding.md R130) -/

/-- Fetch: the read of PC, then the read of PC + 1, as one big-endian word. -/
def fetch (s : State) : Except Fault Word :=
  match readByte s s.pc.toNat with
  | .error f => .error f
  | .ok hi =>
    match readByte s (s.pc.toNat + 1) with
    | .error f => .error f
    | .ok lo => .ok (wordOfBytes hi lo)

/-- `max(0, t - 10)` (45_timers.md R363). -/
def decayTimer (t : Byte) : Byte := BitVec.ofNat 8 (t.toNat - 10)

/-- The timer decay at the end of a step (45_timers.md R363). -/
def decayTimers (s : State) : State := { s with dt := decayTimer s.dt, st := decayTimer s.st }

/-- The end of a step: the timers decay unless the step faulted (45_timers.md R363, 60_exceptions.md R407). -/
def endStep : Result → Result
  | .next s => if s.status = .running then .next (decayTimers s) else .next s
  | .fault f => .fault f
  | .refused r => .refused r

/-- The word stored at an address, high byte first (20_memory.md R89). -/
def placeWord (m : Memory) (a : Nat) (w : Word) : Memory := (m.poke a (highByte w)).poke (a + 1) (lowByte w)

end Sys2Proof.Machine
end

