-- ==== Sys2Proof/Machine/Operands.lean ====
section
/-! DEFINITION. The operand forms (30_encoding.md R122): registers by number, immediates used as they stand, the address
`I + k`, the key a register names, and the decimal digits of a register. -/

namespace Sys2Proof.Machine

/-- `zext_16(NNN)` (30_encoding.md R122, 00_scope.md R12). -/
def zextAddr (nnn : Addr) : Word := nnn.setWidth 16

/-- The base of the single addressing mode `I + k`, an unbounded integer (20_memory.md R84, 42_index_memory.md). -/
def indexAddr (s : State) : Nat := s.i.toNat

/-- The decimal digits of a byte: hundreds, tens, units (42_index_memory.md R252). -/
def bcdDigits (b : Byte) : List Byte :=
  [BitVec.ofNat 8 (b.toNat / 100), BitVec.ofNat 8 (b.toNat / 10 % 10), BitVec.ofNat 8 (b.toNat % 10)]

/-- The bytes FX55 stores: V0 to Vx in order (42_index_memory.md R253). -/
def regBytes (s : State) (x : RegIx) : List Byte := (regsUpTo x).map (readReg s)

/-- The latch flag of the key number in a register, or the fault of a number of 16 or more (44_input.md R330, R331). -/
def keyOperand (s : State) (x : RegIx) : Except Fault Bool :=
  if h : (readReg s x).toNat < 16 then .ok s.keys[(readReg s x).toNat]
  else .error (.invalidKeyIndex (readReg s x).toNat)

/-- The lowest set key of the latch (44_input.md R332). -/
def firstKey (s : State) : Option (Fin 16) :=
  [0, 1, 2, 3, 4, 5, 6, 7, 8, 9, 10, 11, 12, 13, 14, 15].find? fun k : Fin 16 => s.keys[k.val]

/-- One draw of RAND: the free value of this draw, and the state that has drawn it (41_alu.md R211, log entry 2). -/
def drawRandom (s : State) : Byte × State := (Config.randByte s.draws, { s with draws := s.draws + 1 })

end Sys2Proof.Machine
end

