-- ==== Sys2Proof/Machine/Flags.lean ====
section
/-! DEFINITION. The flag values VF receives (10_state.md R34), computed from exact integers (41_alu.md R199). -/

namespace Sys2Proof.Machine

/-- A flag as the byte VF holds: 1 or 0. -/
def flagByte (b : Bool) : Byte := if b then 1 else 0

/-- Carry of 8XY4: the exact sum is 256 or more (41_alu.md R206). -/
def carryFlag (a b : Byte) : Byte := flagByte (decide (256 ≤ a.toNat + b.toNat))

/-- Borrow of `a - b`: the exact difference is negative (41_alu.md R207, R209). VF is 1 when a borrow OCCURRED. -/
def borrowFlag (a b : Byte) : Byte := flagByte (decide ((a.toNat : Int) - (b.toNat : Int) < 0))

/-- The bit a right shift moves out, bit 0 (41_alu.md R208). -/
def shrFlag (a : Byte) : Byte := a &&& 1

/-- The bit a left shift moves out, bit 7 (41_alu.md R210). -/
def shlFlag (a : Byte) : Byte := (a &&& 0x80) >>> 7

/-- The collision flag of DXYN (43_display.md R291). -/
def collisionFlag (hit : Bool) : Byte := flagByte hit

/-- `V[x] <- result` after `VF <- flag`, in the order the source writes them (41_alu.md R198, 10_state.md R35): for X = F
the result is what stays. -/
def writeFlagThen (s : State) (flag : Byte) (x : RegIx) (result : Byte) : State :=
  writeReg (writeReg s VF flag) x result

end Sys2Proof.Machine
end

