-- ==== Sys2Proof/Machine/Alu.lean ====
section
/-! DEFINITION. Register loads, arithmetic, logic and the random byte (41_alu.md). -/

namespace Sys2Proof.Machine

/-- 6XNN LD Vx, byte (R200). -/
def execLdByte (x : RegIx) (nn : Byte) (s : State) : Result := .next (advance (writeReg s x nn))

/-- 7XNN ADD Vx, byte: no flag (R201). -/
def execAddByte (x : RegIx) (nn : Byte) (s : State) : Result :=
  .next (advance (writeReg s x (BitVec.ofNat 8 ((readReg s x).toNat + nn.toNat))))

/-- 8XY0 LD Vx, Vy (R202). -/
def execLdReg (x y : RegIx) (s : State) : Result := .next (advance (writeReg s x (readReg s y)))

/-- 8XY1 OR Vx, Vy (R203). -/
def execOrReg (x y : RegIx) (s : State) : Result := .next (advance (writeReg s x (readReg s x ||| readReg s y)))

/-- 8XY2 AND Vx, Vy (R204). -/
def execAndReg (x y : RegIx) (s : State) : Result := .next (advance (writeReg s x (readReg s x &&& readReg s y)))

/-- 8XY3 XOR Vx, Vy (R205). -/
def execXorReg (x y : RegIx) (s : State) : Result := .next (advance (writeReg s x (readReg s x ^^^ readReg s y)))

/-- 8XY4 ADD Vx, Vy with the carry in VF (R206). -/
def execAddReg (x y : RegIx) (s : State) : Result :=
  let sum := (readReg s x).toNat + (readReg s y).toNat
  .next (advance (writeFlagThen s (carryFlag (readReg s x) (readReg s y)) x (BitVec.ofNat 8 sum)))

/-- 8XY5 SUB Vx, Vy with the borrow in VF (R207). -/
def execSubReg (x y : RegIx) (s : State) : Result :=
  let diff : Int := (readReg s x).toNat - (readReg s y).toNat
  .next (advance (writeFlagThen s (borrowFlag (readReg s x) (readReg s y)) x (BitVec.ofInt 8 diff)))

/-- 8XY6 SHR Vx: the shift reads VX after the flag is written; VY is not read (R208, R198). -/
def execShr (x _y : RegIx) (s : State) : Result :=
  let s' := writeReg s VF (shrFlag (readReg s x))
  .next (advance (writeReg s' x (readReg s' x >>> 1)))

/-- 8XY7 SUBN Vx, Vy with the borrow in VF (R209). -/
def execSubn (x y : RegIx) (s : State) : Result :=
  let diff : Int := (readReg s y).toNat - (readReg s x).toNat
  .next (advance (writeFlagThen s (borrowFlag (readReg s y) (readReg s x)) x (BitVec.ofInt 8 diff)))

/-- 8XYE SHL Vx: the shift reads VX after the flag is written; VY is not read (R210, R198). -/
def execShl (x _y : RegIx) (s : State) : Result :=
  let s' := writeReg s VF (shlFlag (readReg s x))
  .next (advance (writeReg s' x (readReg s' x <<< 1)))

/-- CXNN RND Vx, byte: a free byte masked by NN (R211, log entry 2). -/
def execRnd (x : RegIx) (nn : Byte) (s : State) : Result :=
  let r := drawRandom s
  .next (advance (writeReg r.2 x (r.1 &&& nn)))

end Sys2Proof.Machine
end

