-- ==== Sys2Proof/Machine/Control.lean ====
section
/-! DEFINITION. Control transfer and skips (40_control_flow.md). -/

namespace Sys2Proof.Machine

/-- 00EE RET (R150). The sum is 16-bit: an entry of 0xFFFE or 0xFFFF, which no call pushes but `RESET_ZERO = false` admits as
a reset value, wraps PC to 0 or 1. The spec states no sum there: DESIGN CHOICE, unsafe; log entry 9. -/
def execRet (s : State) : Result :=
  match popWord s with
  | none => takeFault (.stackUnderflow s.pc) s
  | some (w, s') => .next (setPc s' (w + 2))

/-- 0NNN SYS, an unconditional jump (R151). -/
def execSys (nnn : Addr) (s : State) : Result := .next (setPc s (zextAddr nnn))

/-- 1NNN JP (R152). -/
def execJp (nnn : Addr) (s : State) : Result := .next (setPc s (zextAddr nnn))

/-- 2NNN CALL: the call's own address is pushed (R153). -/
def execCall (nnn : Addr) (s : State) : Result :=
  match pushWord s s.pc with
  | none => takeFault (.stackOverflow s.pc) s
  | some s' => .next (setPc s' (zextAddr nnn))

/-- 3XNN SE Vx, byte (R154). -/
def execSeByte (x : RegIx) (nn : Byte) (s : State) : Result := .next (skipIf (readReg s x == nn) s)

/-- 4XNN SNE Vx, byte (R155). -/
def execSneByte (x : RegIx) (nn : Byte) (s : State) : Result := .next (skipIf (readReg s x != nn) s)

/-- 5XY0 SE Vx, Vy (R156). -/
def execSeReg (x y : RegIx) (s : State) : Result := .next (skipIf (readReg s x == readReg s y) s)

/-- 9XY0 SNE Vx, Vy (R157). -/
def execSneReg (x y : RegIx) (s : State) : Result := .next (skipIf (readReg s x != readReg s y) s)

/-- BNNN JP V0, addr: the sum is not reduced to 12 bits (R158, 90_conflicts.md C1). -/
def execJpV0 (nnn : Addr) (s : State) : Result := .next (setPc s (zextAddr nnn + (readReg s 0).setWidth 16))

end Sys2Proof.Machine
end

