-- ==== Sys2Proof/Machine/Display.lean ====
section
/-! DEFINITION. The display instructions (43_display.md) over the framebuffer of 10_state.md R45. -/

namespace Sys2Proof.Machine

/-- The framebuffer: pixel (x, y) at index y * 64 + x (10_state.md R45). -/
abbrev Frame := Vector Bool 2048

/-- `FB[x, y]`; a place off the screen holds no set pixel. -/
def pixel (fb : Frame) (x y : Nat) : Bool :=
  if h : x < 64 ∧ y < 32 then fb[y * 64 + x]'(by omega) else false

/-- What a draw carries along: the framebuffer, and whether a set pixel was cleared so far. -/
structure Blit where
  fb : Frame
  hit : Bool
  deriving DecidableEq, Repr

/-- One set sprite bit at (x, y): an off-screen pixel is skipped, a set pixel is a collision, the pixel is inverted
(43_display.md R291). -/
def toggle (b : Blit) (x y : Nat) : Blit :=
  if h : x < 64 ∧ y < 32 then
    ⟨b.fb.set (y * 64 + x) (!pixel b.fb x y) (by omega), b.hit || pixel b.fb x y⟩
  else b

/-- One sprite row at (x0, y): column c is bit 7 - c, the most significant bit leftmost (43_display.md R291, decision
D14; log entry 17). -/
def blitRow (row : Byte) (x0 y : Nat) (b : Blit) : Blit :=
  [0, 1, 2, 3, 4, 5, 6, 7].foldl (fun acc c => if row.getLsbD (7 - c) then toggle acc (x0 + c) y else acc) b

/-- The rows of a sprite, the first at y (43_display.md R291). -/
def blitRows (x0 : Nat) : Nat → List Byte → Blit → Blit
  | _, [], b => b
  | y, row :: rows, b => blitRows x0 (y + 1) rows (blitRow row x0 y b)

/-- 00E0 CLS (R290). -/
def execCls (s : State) : Result := .next (advance { s with fb := Vector.replicate 2048 false, dirty := true })

/-- DXYN DRW Vx, Vy, n: every row is read before anything changes, the coordinates before VF is written (R291). -/
def execDrw (x y : RegIx) (n : RowCount) (s : State) : Result :=
  match readBytes s (indexAddr s) n.val with
  | .error f => takeFault f s
  | .ok rows =>
    let b := blitRows (readReg s x).toNat (readReg s y).toNat rows ⟨s.fb, false⟩
    .next (advance (writeReg { s with fb := b.fb, dirty := true } VF (collisionFlag b.hit)))

/-- FX29 LD F, Vx: VX is not reduced to a digit (R292). -/
def execLdF (x : RegIx) (s : State) : Result :=
  .next (advance { s with i := BitVec.ofNat 16 ((readReg s x).toNat * 5) })

end Sys2Proof.Machine
end

