-- ==== Sys2Proof/Machine/IndexMemory.lean ====
section
/-! DEFINITION. The index register and memory transfer (42_index_memory.md). -/

namespace Sys2Proof.Machine

/-- ANNN LD I, addr (R250). -/
def execLdI (nnn : Addr) (s : State) : Result := .next (advance { s with i := zextAddr nnn })

/-- FX1E ADD I, Vx: a sum that does not fit 16 bits faults before any change (R251). -/
def execAddI (x : RegIx) (s : State) : Result :=
  let sum := s.i.toNat + (readReg s x).toNat
  if 0xFFFF < sum then takeFault (.indexOverflow s.pc sum) s
  else .next (advance { s with i := BitVec.ofNat 16 sum })

/-- FX33 LD B, Vx: three stores in ascending order (R252). -/
def execLdB (x : RegIx) (s : State) : Result := finishTransfer (storeBytes (indexAddr s) (bcdDigits (readReg s x)) s)

/-- FX55 LD [I], Vx: X + 1 stores in ascending order, I unchanged (R253). -/
def execLdMem (x : RegIx) (s : State) : Result := finishTransfer (storeBytes (indexAddr s) (regBytes s x) s)

/-- FX65 LD Vx, [I]: X + 1 loads in ascending order, I unchanged (R254). -/
def execLdRegs (x : RegIx) (s : State) : Result := finishTransfer (loadRegsFrom (indexAddr s) (regsUpTo x) s)

end Sys2Proof.Machine
end

