-- ==== Sys2Proof/Machine/Input.lean ====
section
/-! DEFINITION. The key instructions (44_input.md). -/

namespace Sys2Proof.Machine

/-- EX9E SKP Vx (R330). -/
def execSkp (x : RegIx) (s : State) : Result :=
  match keyOperand s x with
  | .error f => takeFault f s
  | .ok set => .next (skipIf set s)

/-- EXA1 SKNP Vx (R331). -/
def execSknp (x : RegIx) (s : State) : Result :=
  match keyOperand s x with
  | .error f => takeFault f s
  | .ok set => .next (skipIf (!set) s)

/-- FX0A LD Vx, K: with no key set nothing changes and PC still addresses this word (R332). -/
def execLdKey (x : RegIx) (s : State) : Result :=
  match firstKey s with
  | none => .next s
  | some k => .next (advance (writeReg s x (BitVec.ofNat 8 k.val)))

end Sys2Proof.Machine
end

