-- ==== Sys2Proof/Machine/Timers.lean ====
section
/-! DEFINITION. The timer instructions (45_timers.md); the decay of every step is `decayTimers` of Machine/Ops.lean. -/

namespace Sys2Proof.Machine

/-- FX07 LD Vx, DT: the value before this step's decay (R360). -/
def execLdVxDT (x : RegIx) (s : State) : Result := .next (advance (writeReg s x s.dt))

/-- FX15 LD DT, Vx (R361). -/
def execLdDT (x : RegIx) (s : State) : Result := .next (advance { s with dt := readReg s x })

/-- FX18 LD ST, Vx (R362). -/
def execLdST (x : RegIx) (s : State) : Result := .next (advance { s with st := readReg s x })

end Sys2Proof.Machine
end

