-- ==== Sys2Proof/Machine/Step.lean ====
section
/-! DEFINITION. One step of the core (30_encoding.md R130), and the placing of an instruction where the next step fetches. -/

namespace Sys2Proof.Machine

/-- One instruction cycle: fetch, decode, execute, timer decay (30_encoding.md R130). A core that has faulted has no step
and answers its fault (60_exceptions.md R407, log entry 1). -/
def step (s : State) : Host.Outcome State Fault Refusal :=
  match s.status with
  | .faulted f => .fault f
  | .running =>
    match fetch s with
    | .error f => takeFault f s
    | .ok w =>
      match decodeWord w with
      | .error _ => takeFault (.unimplementedOpcode w s.pc) s
      | .ok i => endStep (exec i s)

/-- Whether both bytes of a word at the address can be stored (20_memory.md R83). -/
def State.fetchPlace (s : State) : Nat :=
  if writable s.pc.toNat && writable (s.pc.toNat + 1) then s.pc.toNat else 0x200

/-- The state whose very next step runs the instruction word: stored at PC where PC lies in the program zone; elsewhere at
the entry point 0x200, with PC there, since no word can be stored outside the zone. A faulted core has no step, so `status`
is `Running` (log entry 22). -/
def State.withFetchWord (s : State) (nbits w : Nat) : State :=
  { s with
    pc := BitVec.ofNat 16 s.fetchPlace
    status := .running
    mem := placeWord s.mem s.fetchPlace (BitVec.ofNat 16 (w % 2 ^ nbits)) }

end Sys2Proof.Machine
end

