-- ==== Sys2Proof/Machine/HostPort.lean ====
section
/-! DEFINITION. The core at its host boundary: every operation of 60_exceptions.md R415, each between two steps (R416), the
program load of 20_memory.md R99 to R101, the value `awaitingKey` of 10_state.md R49, and the switch VF_DEST_MODE of
00_scope.md R10. -/

namespace Sys2Proof.Machine

/-- What an operation answers to the host (60_exceptions.md R415, R417, R421). -/
inductive HostReply where
  | ok
  /-- A fault of the core, or InvalidKeyIndex of a refused setKey or clearKey (R407, R417). -/
  | fault (f : Fault)
  /-- A program longer than the program zone (20_memory.md R100). -/
  | programTooLarge
  /-- The path does not resolve (20_memory.md R101). -/
  | fileNotFound (path : String)
  /-- The 2048 pixel values, element y * 64 + x (R415). -/
  | pixels (fb : Vector Bool 2048)
  /-- The value of `dirty` (R415). -/
  | flag (b : Bool)
  /-- All state, for inspection (R415, R419). -/
  | state (s : State)
  /-- The step was refused; `step` never is. -/
  | refused (r : Refusal)
  deriving DecidableEq, Repr

/-- What `step()` returns for the state it leaves: ok, or the fault the step raised (60_exceptions.md R407). -/
def replyOf : RunStatus → HostReply
  | .running => .ok
  | .faulted f => .fault f

/-- `step()` as the host calls it (R415): one cycle of a running core; a faulted core returns its fault again and nothing
changes (R407). -/
def hostStep (s : State) : State × HostReply :=
  match step s with
  | .next t => (t, replyOf t.status)
  | .fault f => (s, .fault f)
  | .refused r => (s, .refused r)

/-- `setKey(index)`; outside 0 to 15 it is refused, the core unchanged (R415, R417). -/
def setKey (index : Nat) (s : State) : State × HostReply :=
  if h : index < 16 then ({ s with keys := s.keys.set index true }, .ok) else (s, .fault (.invalidKeyIndex index))

/-- `clearKey(index)`; outside 0 to 15 it is refused, the core unchanged (R415, R417). -/
def clearKey (index : Nat) (s : State) : State × HostReply :=
  if h : index < 16 then ({ s with keys := s.keys.set index false }, .ok) else (s, .fault (.invalidKeyIndex index))

/-- The host clears `dirty` (R415, 10_state.md R47). -/
def clearDirty (s : State) : State × HostReply := ({ s with dirty := false }, .ok)

/-- The longest program, 0xE9F - 0x200 + 1 bytes (00_scope.md R9, 20_memory.md R100). -/
def maxProgram : Nat := 3232

/-- `loadProgram(bytes)`: the length is checked before any byte is written, then byte j is stored at 0x200 + j (20_memory.md
R99, R100). The host calls it at most once, before the first step (70_reset_and_hazards.md R451, log entry 21). -/
def loadProgram (bytes : List Byte) (s : State) : State × HostReply :=
  if maxProgram < bytes.length then (s, .programTooLarge)
  else
    match storeBytes 0x200 bytes s with
    | (t, none) => (t, .ok)
    | (t, some f) => (t, .fault f)

/-- `loadFromFile(path)`: `contents` is what the path resolves to, none where it does not resolve (20_memory.md R101, log
entry 21). -/
def loadFromFile (path : String) (contents : Option (List Byte)) (s : State) : State × HostReply :=
  match contents with
  | none => (s, .fileNotFound path)
  | some bytes => loadProgram bytes s

/-- The operations of the host interface (60_exceptions.md R415). -/
inductive HostOp where
  | step
  | setKey (index : Nat)
  | clearKey (index : Nat)
  | readFramebuffer
  | readDirty
  | clearDirty
  | inspect
  | loadProgram (bytes : List Byte)
  | loadFromFile (path : String) (contents : Option (List Byte))
  /-- A fresh construction, which is how a restart happens (70_reset_and_hazards.md R450). RAND goes on where it was: it is
  not core state (10_state.md R50; DEDUCED, log entry 2). -/
  | construct (font : Vector Byte 80)
  deriving DecidableEq, Repr

/-- One operation of the host: the core after it, and what it returns (60_exceptions.md R415). -/
def hostApply (op : HostOp) (s : State) : State × HostReply :=
  match op with
  | .step => hostStep s
  | .setKey index => setKey index s
  | .clearKey index => clearKey index s
  | .readFramebuffer => (s, .pixels s.fb)
  | .readDirty => (s, .flag s.dirty)
  | .clearDirty => clearDirty s
  | .inspect => (s, .state s)
  | .loadProgram bytes => loadProgram bytes s
  | .loadFromFile path contents => loadFromFile path contents s
  | .construct font => (State.construct font ResetValues.zero s.draws, .ok)

/-- A byte of memory as the host may inspect it (60_exceptions.md R415); the dead zone has none (20_memory.md R88). -/
def inspectByte (s : State) (a : Nat) : Option Byte := (readByte s a).toOption

/-- The instruction the next step would execute, if it fetches and decodes one. -/
def nextInstr (s : State) : Option Instr :=
  match fetch s with
  | .error _ => none
  | .ok w =>
    match decodeWord w with
    | .error _ => none
    | .ok i => some i

/-- `awaitingKey`, derived and not stored: PC addresses an FX0A word and no key is set (10_state.md R49). A faulted core is
not waiting, whatever its PC addresses, since it re-executes nothing; R49 does not name that case. DESIGN CHOICE, log
entry 25. -/
def awaitingKey (s : State) : Bool :=
  match s.status, nextInstr s with
  | .running, some (.ldKey _) => (firstKey s).isNone
  | _, _ => false

/-- The host adapter's key map, outside the core and given for reference (60_exceptions.md R418). -/
def charToKeyIndex (c : Char) : Option (Fin 16) :=
  match c with
  | '1' => some 0x1 | '2' => some 0x2 | '3' => some 0x3 | '4' => some 0xC
  | 'q' => some 0x4 | 'w' => some 0x5 | 'e' => some 0x6 | 'r' => some 0xD
  | 'a' => some 0x7 | 's' => some 0x8 | 'd' => some 0x9 | 'f' => some 0xE
  | 'z' => some 0xA | 'x' => some 0x0 | 'c' => some 0xB | 'v' => some 0xF
  | _ => none

/-- The numeric code of a fault (60_exceptions.md R400). -/
def Fault.code : Fault → Nat
  | .addressOutOfRange _ _ => 1
  | .unimplementedOpcode _ _ => 2
  | .invalidKeyIndex _ => 3
  | .stackOverflow _ => 4
  | .stackUnderflow _ => 5
  | .indexOverflow _ _ => 6

/-- A flag-writing instruction of 41_alu.md whose X is F (10_state.md R35). -/
def vfIsDestination : Instr → Bool
  | .addReg x _ | .subReg x _ | .shr x _ | .subn x _ | .shl x _ => x == VF
  | _ => false

/-- The step under VF_DEST_MODE (00_scope.md R10): `refuse` places the words of `vfIsDestination` outside the model. -/
def stepVfDest (mode : VfDestMode) (s : State) : Result :=
  match mode with
  | .sequential => step s
  | .refuse =>
    if decide (s.status = .running) && (nextInstr s).any vfIsDestination then .refused .vfDestination else step s

end Sys2Proof.Machine
end

