-- ==== Sys2Proof/Safety.lean ====
section
/-! DEFINITION. The terms of the claims: the invariant, what a run without a fault is, and the parts of the state an
instruction leaves unchanged. -/

namespace Sys2Proof.Machine

/-! ## The invariant -/

/-- Every return address on the stack is one a call could have been fetched from (40_control_flow.md R150: "it pushes at
most 0xE9E"). -/
def liveStackBounded (s : State) : Prop :=
  ∀ (k : Nat) (h : k < s.sp.entries.val), (s.stack[k]'(by omega)).toNat ≤ 0xE9E

/-- The invariant of the core: memory in its canonical form (so the font and reserved zones hold their reset contents,
20_memory.md R85, R86), PC no larger than any rule writes (10_state.md R39), bounded return addresses. -/
def CoreInv (s : State) : Prop := s.mem.wf ∧ s.pc.toNat ≤ 0x10FE ∧ liveStackBounded s

/-! ## Runs -/

/-- `n` steps none of which faults, none executing an instruction that `p` holds of. -/
def RunsWithout (p : Instr → Bool) : Nat → State → State → Prop
  | 0, s, t => s = t
  | n + 1, s, t =>
    (nextInstr s).any p = false ∧ ∃ u, step s = .next u ∧ u.status = .running ∧ RunsWithout p n u t

/-! ## Frames -/

/-- Every general register outside the list is unchanged. -/
def SameRegsBut (xs : List RegIx) (s t : State) : Prop := ∀ r, r ∉ xs → readReg t r = readReg s r

/-- Every byte of memory outside the `n` bytes at `a` reads as before. -/
def SameMemBut (a n : Nat) (s t : State) : Prop := ∀ b, b < a ∨ a + n ≤ b → readByte t b = readByte s b

/-- Every byte of memory reads as before. -/
def SameMem (s t : State) : Prop := ∀ b, readByte t b = readByte s b

/-- SP and the call stack are unchanged. -/
def SameStack (s t : State) : Prop := t.sp = s.sp ∧ t.stack = s.stack

/-- DT and ST are unchanged (the decay is the step's, not the instruction's). -/
def SameTimers (s t : State) : Prop := t.dt = s.dt ∧ t.st = s.st

/-- The framebuffer and `dirty` are unchanged. -/
def SameDisplay (s t : State) : Prop := t.fb = s.fb ∧ t.dirty = s.dirty

/-- The latch, the run status and the draw counter are unchanged. -/
def SameRest (s t : State) : Prop := t.keys = s.keys ∧ t.status = s.status ∧ t.draws = s.draws

/-- Only the listed general registers and PC may have changed. -/
def OnlyRegs (xs : List RegIx) (s t : State) : Prop :=
  SameRegsBut xs s t ∧ t.i = s.i ∧ SameStack s t ∧ SameTimers s t ∧ SameDisplay s t ∧ SameRest s t ∧ SameMem s t

/-- Only PC may have changed. -/
def OnlyPc (s t : State) : Prop := OnlyRegs [] s t

/-- Only I and PC may have changed. -/
def OnlyIndex (s t : State) : Prop :=
  SameRegsBut [] s t ∧ SameStack s t ∧ SameTimers s t ∧ SameDisplay s t ∧ SameRest s t ∧ SameMem s t

/-- Only SP, the stack and PC may have changed. -/
def OnlyStack (s t : State) : Prop :=
  SameRegsBut [] s t ∧ t.i = s.i ∧ SameTimers s t ∧ SameDisplay s t ∧ SameRest s t ∧ SameMem s t

/-- Only DT, ST and PC may have changed. -/
def OnlyTimers (s t : State) : Prop :=
  SameRegsBut [] s t ∧ t.i = s.i ∧ SameStack s t ∧ SameDisplay s t ∧ SameRest s t ∧ SameMem s t

/-- Only the listed general registers, the framebuffer, `dirty` and PC may have changed. -/
def OnlyDisplay (xs : List RegIx) (s t : State) : Prop :=
  SameRegsBut xs s t ∧ t.i = s.i ∧ SameStack s t ∧ SameTimers s t ∧ SameRest s t ∧ SameMem s t

/-- Only the `n` bytes of memory at `a` and PC may have changed. -/
def OnlyMem (a n : Nat) (s t : State) : Prop :=
  SameRegsBut [] s t ∧ t.i = s.i ∧ SameStack s t ∧ SameTimers s t ∧ SameDisplay s t ∧ SameRest s t ∧
    SameMemBut a n s t

/-! ## The sprite, as a picture -/

/-- Whether the sprite `rows`, its top-left pixel at (x0, y0), has its bit set at (x, y): the most significant bit of a row
is its leftmost pixel (43_display.md R291). -/
def spriteBit (rows : List Byte) (x0 y0 x y : Nat) : Bool :=
  decide (x0 ≤ x) && decide (x < x0 + 8) && decide (y0 ≤ y) &&
    (match rows[y - y0]? with
     | some row => row.getLsbD (7 - (x - x0))
     | none => false)

/-! ## What the rules allow an instruction -/

/-- A register field as the four bits it occupies in a word (30_encoding.md R121). -/
abbrev nibble (x : RegIx) : BitVec 4 := BitVec.ofFin x

/-- The instruction that writes DT (10_state.md R44). -/
def writesDT : Instr → Bool
  | .ldDT _ => true
  | _ => false

/-- The instruction that writes ST (10_state.md R44). -/
def writesST : Instr → Bool
  | .ldST _ => true
  | _ => false

/-- The general registers an instruction may write (10_state.md R33): VF as a flag, then the destination. -/
def writtenRegs : Instr → List RegIx
  | .ret | .sys _ | .jp _ | .call _ | .jpV0 _ => []
  | .seByte _ _ | .sneByte _ _ | .seReg _ _ | .sneReg _ _ => []
  | .ldByte x _ | .addByte x _ | .ldReg x _ | .orReg x _ | .andReg x _ | .xorReg x _ | .rnd x _ => [x]
  | .addReg x _ | .subReg x _ | .shr x _ | .subn x _ | .shl x _ => [VF, x]
  | .ldI _ | .addI _ | .ldB _ | .ldMem _ | .ldF _ | .cls => []
  | .ldRegs x => regsUpTo x
  | .drw _ _ _ => [VF]
  | .skp _ | .sknp _ | .ldDT _ | .ldST _ => []
  | .ldKey x | .ldVxDT x => [x]

/-- The bytes a storing instruction writes at `I`, in ascending order (42_index_memory.md R252, R253). -/
def storedBytes : Instr → State → List Byte
  | .ldB x, s =>
    [BitVec.ofNat 8 ((readReg s x).toNat / 100), BitVec.ofNat 8 ((readReg s x).toNat / 10 % 10),
      BitVec.ofNat 8 ((readReg s x).toNat % 10)]
  | .ldMem x, s => (List.range (x.val + 1)).map fun k => readReg s (Fin.ofNat 16 k)
  | _, _ => []

/-- The two instructions that store to memory (20_memory.md R91). -/
def storesToMemory : Instr → Bool
  | .ldB _ | .ldMem _ => true
  | _ => false

/-- The three instructions a fault may leave partly done (60_exceptions.md R408). -/
def partlyDoneOnFault : Instr → Bool
  | .ldB _ | .ldMem _ | .ldRegs _ => true
  | _ => false

/-- The faults an instruction may raise in its execute stage, with their fields (60_exceptions.md R400). -/
def faultAllowed (i : Instr) (s : State) (f : Fault) : Prop :=
  match i with
  | .ret => f = .stackUnderflow s.pc
  | .call _ => f = .stackOverflow s.pc
  | .addI x => f = .indexOverflow s.pc (s.i.toNat + (readReg s x).toNat)
  | .skp x | .sknp x => f = .invalidKeyIndex (readReg s x).toNat
  | .drw _ _ n => ∃ k, k < n.val ∧ 0xEA0 ≤ s.i.toNat + k ∧ f = .addressOutOfRange (s.i.toNat + k) .read
  | .ldRegs x => ∃ k, k ≤ x.val ∧ 0xEA0 ≤ s.i.toNat + k ∧ f = .addressOutOfRange (s.i.toNat + k) .read
  | .ldB _ =>
    ∃ k, k < 3 ∧ ¬(0x200 ≤ s.i.toNat + k ∧ s.i.toNat + k ≤ 0xE9F) ∧ f = .addressOutOfRange (s.i.toNat + k) .write
  | .ldMem x =>
    ∃ k, k ≤ x.val ∧ ¬(0x200 ≤ s.i.toNat + k ∧ s.i.toNat + k ≤ 0xE9F) ∧
      f = .addressOutOfRange (s.i.toNat + k) .write
  | _ => False

/-- Where PC stands after an instruction that did not fault (10_state.md R37). -/
def pcAllowed (i : Instr) (s t : State) : Prop :=
  match i with
  | .seByte x nn => t.pc = if readReg s x = nn then s.pc + 4 else s.pc + 2
  | .sneByte x nn => t.pc = if readReg s x = nn then s.pc + 2 else s.pc + 4
  | .seReg x y => t.pc = if readReg s x = readReg s y then s.pc + 4 else s.pc + 2
  | .sneReg x y => t.pc = if readReg s x = readReg s y then s.pc + 2 else s.pc + 4
  | .skp x => ∃ h : (readReg s x).toNat < 16,
      t.pc = if s.keys[(readReg s x).toNat] = true then s.pc + 4 else s.pc + 2
  | .sknp x => ∃ h : (readReg s x).toNat < 16,
      t.pc = if s.keys[(readReg s x).toNat] = true then s.pc + 2 else s.pc + 4
  | .sys nnn | .jp nnn | .call nnn => t.pc.toNat = nnn.toNat
  | .jpV0 nnn => t.pc.toNat = nnn.toNat + (readReg s 0).toNat
  | .ret => ∃ (k : Nat) (h : k < 24), 2 * k = t.sp.bytes ∧ s.sp.bytes = t.sp.bytes + 2 ∧ t.pc = s.stack[k] + 2
  | .ldKey _ => t.pc = s.pc + 2 ∧ (∃ k : Fin 16, s.keys[k.val] = true) ∨
      t.pc = s.pc ∧ ∀ k : Fin 16, s.keys[k.val] = false
  | _ => t.pc = s.pc + 2

end Sys2Proof.Machine
end

