-- ==== Sys2Proof/Certificates/Slice0/Obligations.lean ====
section
/-! DEFINITION. The statements about the model that the provers settle. Where a clause rests on a decision the spec marks as
its own (D<n> of 92_eei_decisions.md), the docstring names the decision and its log entry. -/

open Sys2Proof Sys2Proof.Machine

/-! ## Encoding -/

/-- One word of every group, written out from the encodings of 40_control_flow.md to 45_timers.md, decodes to the
instruction it stands for. -/
def Obligations.DecodeReadsTheSpecsWords : Prop :=
  decodeWord 0x00E0 = .ok .cls ∧ decodeWord 0x00EE = .ok .ret ∧ decodeWord 0x00FE = .ok (.sys 0x0FE) ∧
  decodeWord 0x1234 = .ok (.jp 0x234) ∧ decodeWord 0x2300 = .ok (.call 0x300) ∧
  decodeWord 0x3110 = .ok (.seByte 1 0x10) ∧ decodeWord 0x4111 = .ok (.sneByte 1 0x11) ∧
  decodeWord 0x5230 = .ok (.seReg 2 3) ∧ decodeWord 0x6AAB = .ok (.ldByte 0xA 0xAB) ∧
  decodeWord 0x700A = .ok (.addByte 0 0x0A) ∧ decodeWord 0x8F14 = .ok (.addReg 0xF 1) ∧
  decodeWord 0x8016 = .ok (.shr 0 1) ∧ decodeWord 0x8FFE = .ok (.shl 0xF 0xF) ∧
  decodeWord 0x9550 = .ok (.sneReg 5 5) ∧ decodeWord 0xA123 = .ok (.ldI 0x123) ∧
  decodeWord 0xBFFF = .ok (.jpV0 0xFFF) ∧ decodeWord 0xC00F = .ok (.rnd 0 0x0F) ∧
  decodeWord 0xD012 = .ok (.drw 0 1 2) ∧ decodeWord 0xE09E = .ok (.skp 0) ∧ decodeWord 0xF20A = .ok (.ldKey 2) ∧
  decodeWord 0x5011 = .error (.unimplemented 0x5011) ∧ decodeWord 0x800F = .error (.unimplemented 0x800F) ∧
  decodeWord 0xE09F = .error (.unimplemented 0xE09F) ∧ decodeWord 0xF075 = .error (.unimplemented 0xF075)

/-- Decoding the encoding of a well-formed instruction gives it back, as a word and as the two big-endian bytes at the head
of any byte sequence (30_encoding.md R120 to R123). -/
def Obligations.DecodeOfEncodeIsTheInstruction : Prop :=
  ∀ i : Instr, i.wellFormed = true →
    decodeWord (encode i) = .ok i ∧ ∀ rest, decode (encodeBytes i ++ rest) = .ok (i, rest)

/-- Every word that decodes is the encoding of the instruction it decodes to, so no bit of a legal word is dropped and no
two words mean one instruction (30_encoding.md R123, R125). -/
def Obligations.EncodeOfDecodeIsTheWord : Prop :=
  ∀ (w : Word) (i : Instr), decodeWord w = .ok i → i.wellFormed = true ∧ encode i = w

/-- 30_encoding.md R123, row by row: the bits of every word, laid out as R122 lays them out, decode to the row's
instruction with every field at every value. -/
def Obligations.EveryRowOfTheTableDecodes : Prop :=
  decodeWord 0x00E0 = .ok .cls ∧ decodeWord 0x00EE = .ok .ret ∧
  (∀ nnn : Addr,
    (nnn ≠ 0x0E0 → nnn ≠ 0x0EE → decodeWord (0x0#4 ++ nnn) = .ok (.sys nnn)) ∧
    decodeWord (0x1#4 ++ nnn) = .ok (.jp nnn) ∧ decodeWord (0x2#4 ++ nnn) = .ok (.call nnn) ∧
    decodeWord (0xA#4 ++ nnn) = .ok (.ldI nnn) ∧ decodeWord (0xB#4 ++ nnn) = .ok (.jpV0 nnn)) ∧
  (∀ (x : RegIx) (nn : Byte),
    decodeWord (0x3#4 ++ nibble x ++ nn) = .ok (.seByte x nn) ∧
    decodeWord (0x4#4 ++ nibble x ++ nn) = .ok (.sneByte x nn) ∧
    decodeWord (0x6#4 ++ nibble x ++ nn) = .ok (.ldByte x nn) ∧
    decodeWord (0x7#4 ++ nibble x ++ nn) = .ok (.addByte x nn) ∧
    decodeWord (0xC#4 ++ nibble x ++ nn) = .ok (.rnd x nn)) ∧
  (∀ x y : RegIx,
    decodeWord (0x5#4 ++ nibble x ++ nibble y ++ 0x0#4) = .ok (.seReg x y) ∧
    decodeWord (0x9#4 ++ nibble x ++ nibble y ++ 0x0#4) = .ok (.sneReg x y) ∧
    decodeWord (0x8#4 ++ nibble x ++ nibble y ++ 0x0#4) = .ok (.ldReg x y) ∧
    decodeWord (0x8#4 ++ nibble x ++ nibble y ++ 0x1#4) = .ok (.orReg x y) ∧
    decodeWord (0x8#4 ++ nibble x ++ nibble y ++ 0x2#4) = .ok (.andReg x y) ∧
    decodeWord (0x8#4 ++ nibble x ++ nibble y ++ 0x3#4) = .ok (.xorReg x y) ∧
    decodeWord (0x8#4 ++ nibble x ++ nibble y ++ 0x4#4) = .ok (.addReg x y) ∧
    decodeWord (0x8#4 ++ nibble x ++ nibble y ++ 0x5#4) = .ok (.subReg x y) ∧
    decodeWord (0x8#4 ++ nibble x ++ nibble y ++ 0x6#4) = .ok (.shr x y) ∧
    decodeWord (0x8#4 ++ nibble x ++ nibble y ++ 0x7#4) = .ok (.subn x y) ∧
    decodeWord (0x8#4 ++ nibble x ++ nibble y ++ 0xE#4) = .ok (.shl x y)) ∧
  (∀ x y n : RegIx, decodeWord (0xD#4 ++ nibble x ++ nibble y ++ nibble n) = .ok (.drw x y n)) ∧
  (∀ x : RegIx,
    decodeWord (0xE#4 ++ nibble x ++ 0x9E#8) = .ok (.skp x) ∧
    decodeWord (0xE#4 ++ nibble x ++ 0xA1#8) = .ok (.sknp x) ∧
    decodeWord (0xF#4 ++ nibble x ++ 0x07#8) = .ok (.ldVxDT x) ∧
    decodeWord (0xF#4 ++ nibble x ++ 0x0A#8) = .ok (.ldKey x) ∧
    decodeWord (0xF#4 ++ nibble x ++ 0x15#8) = .ok (.ldDT x) ∧
    decodeWord (0xF#4 ++ nibble x ++ 0x18#8) = .ok (.ldST x) ∧
    decodeWord (0xF#4 ++ nibble x ++ 0x1E#8) = .ok (.addI x) ∧
    decodeWord (0xF#4 ++ nibble x ++ 0x29#8) = .ok (.ldF x) ∧
    decodeWord (0xF#4 ++ nibble x ++ 0x33#8) = .ok (.ldB x) ∧
    decodeWord (0xF#4 ++ nibble x ++ 0x55#8) = .ok (.ldMem x) ∧
    decodeWord (0xF#4 ++ nibble x ++ 0x65#8) = .ok (.ldRegs x))

/-- 30_encoding.md R124: exactly these words are illegal, and decoding one rejects it by name. The rule marks itself as
derived from R123. -/
def Obligations.IllegalWordsAreExactlyThose : Prop :=
  (∀ w : Word,
    decodeWord w = .error (.unimplemented w) ↔
      (w.extractLsb 15 12 = 0x5 ∧ w.extractLsb 3 0 ≠ 0x0) ∨
      (w.extractLsb 15 12 = 0x8 ∧
        w.extractLsb 3 0 ∈ [0x8#4, 0x9#4, 0xA#4, 0xB#4, 0xC#4, 0xD#4, 0xF#4]) ∨
      (w.extractLsb 15 12 = 0x9 ∧ w.extractLsb 3 0 ≠ 0x0) ∨
      (w.extractLsb 15 12 = 0xE ∧ w.extractLsb 7 0 ∉ [0x9E#8, 0xA1#8]) ∨
      (w.extractLsb 15 12 = 0xF ∧
        w.extractLsb 7 0 ∉ [0x07#8, 0x0A#8, 0x15#8, 0x18#8, 0x1E#8, 0x29#8, 0x33#8, 0x55#8, 0x65#8])) ∧
  (∀ w : Word, decodeWord w = .error (.unimplemented w) ∨ ∃ i, decodeWord w = .ok i)

/-! ## The instruction cycle -/

/-- 30_encoding.md R130, the whole cycle of a running core: the two reads, decode, execute, decay, with the fault of each
stage ending the step. -/
def Obligations.StepRunsTheDecodedInstruction : Prop :=
  ∀ s : State, s.status = .running →
    (∀ f, readByte s s.pc.toNat = .error f → step s = .next { s with status := .faulted f }) ∧
    (∀ hi f, readByte s s.pc.toNat = .ok hi → readByte s (s.pc.toNat + 1) = .error f →
      step s = .next { s with status := .faulted f }) ∧
    ∀ hi lo : Byte, readByte s s.pc.toNat = .ok hi → readByte s (s.pc.toNat + 1) = .ok lo →
      (∀ e, decodeWord (hi ++ lo) = .error e →
        step s = .next { s with status := .faulted (.unimplementedOpcode (hi ++ lo) s.pc) }) ∧
      ∀ i, decodeWord (hi ++ lo) = .ok i → ∀ t, exec i s = .next t →
        (t.status = .running → ∃ u, step s = .next u ∧ u = { t with dt := u.dt, st := u.st } ∧
          u.dt.toNat = t.dt.toNat - 10 ∧ u.st.toNat = t.st.toNat - 10) ∧
        (∀ f, t.status = .faulted f → step s = .next t)

/-- 60_exceptions.md R401 for a fetch: the fault names the byte address of the rejected read (the rejection of addresses of
0x1000 and above is the spec's decision D1, log entry 8). -/
def Obligations.FetchBeyondTheProgramZoneFaults : Prop :=
  ∀ s : State, s.status = .running → 0xE9F ≤ s.pc.toNat →
    step s = .next { s with status := .faulted (.addressOutOfRange (max s.pc.toNat 0xEA0) .read) }

/-- A faulted core has no step, every call of `step()` returns its fault and changes nothing; a running core's call returns
ok or the fault its step raised (60_exceptions.md R407; that the status is sticky is the spec's decision D9, log entry 1). -/
def Obligations.FaultedCoreOnlyReturnsItsFault : Prop :=
  (∀ s f, s.status = .faulted f → step s = .fault f ∧ hostStep s = (s, .fault f)) ∧
  ∀ s t : State, s.status = .running → step s = .next t →
    (t.status = .running → hostStep s = (t, .ok)) ∧ ∀ f, t.status = .faulted f → hostStep s = (t, .fault f)

/-- A faulting step leaves PC at the faulting instruction and the timers as they were; unless the instruction is FX33, FX55
or FX65 it leaves everything but `status` as it was (60_exceptions.md R408; the order behind it is the spec's decision
D10, log entry 13). -/
def Obligations.FaultsArePrecise : Prop :=
  ∀ (s t : State) (f : Fault), s.status = .running → step s = .next t → t.status = .faulted f →
    t.pc = s.pc ∧ t.i = s.i ∧ SameStack s t ∧ SameTimers s t ∧ SameDisplay s t ∧ t.keys = s.keys ∧ t.draws = s.draws ∧
    ((nextInstr s).any partlyDoneOnFault = false → t = { s with status := .faulted f })

/-- Each instruction raises only the fault its row of 60_exceptions.md R400 names, with the fields R401 to R406 give it (the
kinds of 2NNN, 00EE and FX1E are the spec's decisions D8 and D12, log entries 11 and 15). -/
def Obligations.FaultKindsFollowTheTable : Prop :=
  ∀ (i : Instr) (s t : State) (f : Fault), s.status = .running → exec i s = .next t → t.status = .faulted f →
    faultAllowed i s f

/-- No instruction is refused or stops the machine from a state: every meaning answers a next state, and every running core
has a step (30_encoding.md R130, 60_exceptions.md R412; a fault is a next state, log entry 1). -/
def Obligations.EveryInstructionAnswersANextState : Prop :=
  (∀ (i : Instr) (s : State), ∃ t, exec i s = .next t) ∧
  ∀ s : State, s.status = .running → ∃ t, step s = .next t

/-! ## The invariant -/

/-- Every step keeps the invariant: memory's canonical form, PC no larger than any rule writes (10_state.md R39), return
addresses a call could have pushed (40_control_flow.md R150). -/
def Obligations.EveryStepKeepsTheInvariant : Prop :=
  ∀ s t : State, CoreInv s → step s = .next t → CoreInv t

/-- The invariant holds after construction with any FONT and however many bytes RAND has given, so at reset
(70_reset_and_hazards.md R450). Its clause on return addresses holds because SP starts at 0, the spec's decision D3 and the
model's choice: log entry 4. -/
def Obligations.InvariantHoldsAfterConstruction : Prop :=
  (∀ (font : Vector Byte 80) (draws : Nat), CoreInv (State.construct font ResetValues.zero draws)) ∧ CoreInv State.reset

/-- Every operation of the host interface keeps the invariant (60_exceptions.md R415). -/
def Obligations.EveryHostOperationKeepsTheInvariant : Prop :=
  ∀ (op : HostOp) (s : State), CoreInv s → CoreInv (hostApply op s).1

/-- The font zone reads the FONT bytes, the reserved zone reads 0, and no step changes either (20_memory.md R85, R86). -/
def Obligations.FontAndReservedZonesNeverChange : Prop :=
  ∀ s : State, s.mem.wf →
    (∀ (a : Nat) (h : a < 80), readByte s a = .ok s.mem.font[a]) ∧
    (∀ a : Nat, 0x50 ≤ a → a < 0x200 → readByte s a = .ok 0) ∧
    ∀ t : State, step s = .next t → t.mem.font = s.mem.font ∧ ∀ a : Nat, a < 0x200 → readByte t a = readByte s a

/-! ## Control transfer -/

/-- 0NNN and 1NNN jump to NNN, BNNN to NNN + V0 without reduction, and change nothing else (40_control_flow.md R151, R152,
R158). -/
def Obligations.JumpsWriteTheTarget : Prop :=
  ∀ (nnn : Addr) (s : State),
    (∃ t, exec (.sys nnn) s = .next t ∧ t.pc.toNat = nnn.toNat ∧ OnlyPc s t) ∧
    (∃ t, exec (.jp nnn) s = .next t ∧ t.pc.toNat = nnn.toNat ∧ OnlyPc s t) ∧
    (∃ t, exec (.jpV0 nnn) s = .next t ∧ t.pc.toNat = (readReg s 0).toNat + nnn.toNat ∧ OnlyPc s t)

/-- 2NNN with room on the stack pushes its own address at SP / 2, adds 2 to SP and jumps; with SP = 48 it takes
StackOverflow before any change (40_control_flow.md R153; the discipline and the fault are the spec's decisions D7 and D8,
log entry 11). -/
def Obligations.CallPushesItsAddress : Prop :=
  ∀ (nnn : Addr) (s : State),
    (s.sp.bytes < 48 → ∃ t, exec (.call nnn) s = .next t ∧
      (∀ (k : Nat) (h : k < 24), t.stack[k] = if 2 * k = s.sp.bytes then s.pc else s.stack[k]) ∧
      t.sp.bytes = s.sp.bytes + 2 ∧ t.pc.toNat = nnn.toNat ∧ OnlyStack s t) ∧
    (s.sp.bytes = 48 → exec (.call nnn) s = .next { s with status := .faulted (.stackOverflow s.pc) })

/-- 00EE with an entry on the stack subtracts 2 from SP and returns to the entry plus 2, clearing nothing; with SP = 0 it
takes StackUnderflow before any change (40_control_flow.md R150; decisions D7 and D8, log entry 11; that the sum wraps for an
entry of 0xFFFE or 0xFFFF, which no call pushes, is the model's choice, log entry 9). -/
def Obligations.ReturnPopsTheAddress : Prop :=
  ∀ s : State,
    (0 < s.sp.bytes → ∃ t, exec .ret s = .next t ∧ t.sp.bytes = s.sp.bytes - 2 ∧ t.stack = s.stack ∧
      (∀ (k : Nat) (h : k < 24), 2 * k = t.sp.bytes → t.pc = s.stack[k] + 2) ∧ OnlyStack s t) ∧
    (s.sp.bytes = 0 → exec .ret s = .next { s with status := .faulted (.stackUnderflow s.pc) })

/-- A return executed with SP and the stack as a call left them comes back to the instruction after the call, with SP as
before it (40_control_flow.md R150, R153; decision D7, log entry 11; that the sum wraps for a call at 0xFFFE or 0xFFFF, which
no step fetches, is the model's choice, log entry 9). -/
def Obligations.ReturnComesBackAfterTheCall : Prop :=
  ∀ (nnn : Addr) (s u : State), s.sp.bytes < 48 →
    (∃ t, exec (.call nnn) s = .next t ∧ u.sp = t.sp ∧ u.stack = t.stack) →
    ∃ w, exec .ret u = .next w ∧ w.pc = s.pc + 2 ∧ w.sp = s.sp

/-- 3XNN and 4XNN (40_control_flow.md R154, R155). -/
def Obligations.SkipsOnAByte : Prop :=
  ∀ (x : RegIx) (nn : Byte) (s : State),
    (∃ t, exec (.seByte x nn) s = .next t ∧ t.pc = (if readReg s x = nn then s.pc + 4 else s.pc + 2) ∧ OnlyPc s t) ∧
    (∃ t, exec (.sneByte x nn) s = .next t ∧ t.pc = (if readReg s x ≠ nn then s.pc + 4 else s.pc + 2) ∧ OnlyPc s t)

/-- 5XY0 and 9XY0 (40_control_flow.md R156, R157). -/
def Obligations.SkipsOnARegister : Prop :=
  ∀ (x y : RegIx) (s : State),
    (∃ t, exec (.seReg x y) s = .next t ∧ t.pc = (if readReg s x = readReg s y then s.pc + 4 else s.pc + 2) ∧
      OnlyPc s t) ∧
    (∃ t, exec (.sneReg x y) s = .next t ∧ t.pc = (if readReg s x ≠ readReg s y then s.pc + 4 else s.pc + 2) ∧
      OnlyPc s t)

/-! ## Registers and arithmetic -/

/-- 6XNN, 7XNN and 8XY0 write VX alone: NN, the sum modulo 256 with no flag, VY (41_alu.md R200, R201, R202). -/
def Obligations.LoadsAndImmediateAdd : Prop :=
  ∀ (x y : RegIx) (nn : Byte) (s : State),
    (∃ t, exec (.ldByte x nn) s = .next t ∧ readReg t x = nn ∧ t.pc = s.pc + 2 ∧ OnlyRegs [x] s t) ∧
    (∃ t, exec (.addByte x nn) s = .next t ∧ (readReg t x).toNat = ((readReg s x).toNat + nn.toNat) % 256 ∧
      t.pc = s.pc + 2 ∧ OnlyRegs [x] s t) ∧
    (∃ t, exec (.ldReg x y) s = .next t ∧ readReg t x = readReg s y ∧ t.pc = s.pc + 2 ∧ OnlyRegs [x] s t)

/-- 8XY1, 8XY2 and 8XY3 combine VX and VY bit by bit into VX alone (41_alu.md R203, R204, R205). -/
def Obligations.BitwiseOperations : Prop :=
  ∀ (x y : RegIx) (s : State),
    (∃ t, exec (.orReg x y) s = .next t ∧
      (∀ k < 8, (readReg t x).getLsbD k = ((readReg s x).getLsbD k || (readReg s y).getLsbD k)) ∧
      t.pc = s.pc + 2 ∧ OnlyRegs [x] s t) ∧
    (∃ t, exec (.andReg x y) s = .next t ∧
      (∀ k < 8, (readReg t x).getLsbD k = ((readReg s x).getLsbD k && (readReg s y).getLsbD k)) ∧
      t.pc = s.pc + 2 ∧ OnlyRegs [x] s t) ∧
    (∃ t, exec (.xorReg x y) s = .next t ∧
      (∀ k < 8, (readReg t x).getLsbD k = ((readReg s x).getLsbD k ^^ (readReg s y).getLsbD k)) ∧
      t.pc = s.pc + 2 ∧ OnlyRegs [x] s t)

/-- 8XY4: VX is the sum modulo 256 and VF the carry; for X = F the sum is what stays (41_alu.md R206; the X = F clause is the
spec's decision D11, log entry 14). -/
def Obligations.AddSetsTheCarry : Prop :=
  ∀ (x y : RegIx) (s : State), ∃ t, exec (.addReg x y) s = .next t ∧
    (readReg t x).toNat = ((readReg s x).toNat + (readReg s y).toNat) % 256 ∧
    (x ≠ VF → readReg t VF = if 256 ≤ (readReg s x).toNat + (readReg s y).toNat then 1 else 0) ∧
    t.pc = s.pc + 2 ∧ OnlyRegs [x, VF] s t

/-- 8XY5 and 8XY7: VX is the difference modulo 256 and VF is 1 when a borrow occurred; for X = F the difference is what
stays (41_alu.md R207, R209; the X = F clause is the spec's decision D11, log entry 14). -/
def Obligations.SubtractSetsTheBorrow : Prop :=
  ∀ (x y : RegIx) (s : State),
    (∃ t, exec (.subReg x y) s = .next t ∧
      (readReg t x).toNat = ((readReg s x).toNat + 256 - (readReg s y).toNat) % 256 ∧
      (x ≠ VF → readReg t VF = if (readReg s x).toNat < (readReg s y).toNat then 1 else 0) ∧
      t.pc = s.pc + 2 ∧ OnlyRegs [x, VF] s t) ∧
    (∃ t, exec (.subn x y) s = .next t ∧
      (readReg t x).toNat = ((readReg s y).toNat + 256 - (readReg s x).toNat) % 256 ∧
      (x ≠ VF → readReg t VF = if (readReg s y).toNat < (readReg s x).toNat then 1 else 0) ∧
      t.pc = s.pc + 2 ∧ OnlyRegs [x, VF] s t)

/-- 8XY6 and 8XYE shift VX by one, VF takes the bit shifted out, VY is not read; for X = F the flag itself is shifted
(41_alu.md R208, R210; the X = F clauses are the spec's decision D11, log entry 14). -/
def Obligations.ShiftsMoveOneBit : Prop :=
  ∀ (x y : RegIx) (s : State),
    (∃ t, exec (.shr x y) s = .next t ∧ t.pc = s.pc + 2 ∧ OnlyRegs [x, VF] s t ∧
      (x ≠ VF → (readReg t x).toNat = (readReg s x).toNat / 2 ∧ (readReg t VF).toNat = (readReg s x).toNat % 2) ∧
      (x = VF → readReg t VF = 0)) ∧
    (∃ t, exec (.shl x y) s = .next t ∧ t.pc = s.pc + 2 ∧ OnlyRegs [x, VF] s t ∧
      (x ≠ VF → (readReg t x).toNat = (readReg s x).toNat * 2 % 256 ∧
        (readReg t VF).toNat = (readReg s x).toNat / 128) ∧
      (x = VF → readReg t VF = if 128 ≤ (readReg s x).toNat then 2 else 0))

/-- CXNN writes VX alone, a byte with no bit outside NN; which byte is the free value of this draw (41_alu.md R211; that the
draw is unconstrained is the spec's decision D19, log entry 2). -/
def Obligations.RandomByteIsMasked : Prop :=
  ∀ (x : RegIx) (nn : Byte) (s : State), ∃ t, exec (.rnd x nn) s = .next t ∧
    readReg t x = Config.randByte s.draws &&& nn ∧ readReg t x &&& ~~~nn = 0 ∧
    t.pc = s.pc + 2 ∧ t.draws = s.draws + 1 ∧ t.keys = s.keys ∧ t.status = s.status ∧
    SameRegsBut [x] s t ∧ t.i = s.i ∧ SameStack s t ∧ SameTimers s t ∧ SameDisplay s t ∧ SameMem s t

/-- An instruction changes no general register but those the table of 10_state.md R33 lists as written by it; VF in
particular changes only as a flag of 8XY4 to 8XY7, 8XYE and DXYN or as the destination (R34). -/
def Obligations.OnlyTheListedRegistersAreWritten : Prop :=
  ∀ (i : Instr) (s t : State), exec i s = .next t → SameRegsBut (writtenRegs i) s t

/-- PC after an instruction that did not fault, and after one that did (10_state.md R37; that a sum above 0xFFFF wraps, in
states no run from State.reset reaches, is the model's choice, log entry 9). -/
def Obligations.PcMovesAsTheRulesSay : Prop :=
  ∀ (i : Instr) (s t : State), s.status = .running → exec i s = .next t →
    (t.status = .running → pcAllowed i s t) ∧ (t.status ≠ .running → t.pc = s.pc)

/-! ## The index register and memory -/

/-- ANNN loads NNN, FX29 loads VX * 5, and nothing else changes (42_index_memory.md R250, 43_display.md R292). -/
def Obligations.IndexLoads : Prop :=
  ∀ (nnn : Addr) (x : RegIx) (s : State),
    (∃ t, exec (.ldI nnn) s = .next t ∧ t.i.toNat = nnn.toNat ∧ t.pc = s.pc + 2 ∧ OnlyIndex s t) ∧
    (∃ t, exec (.ldF x) s = .next t ∧ t.i.toNat = (readReg s x).toNat * 5 ∧ t.pc = s.pc + 2 ∧ OnlyIndex s t)

/-- FX1E adds VX to I with no mask and no flag; a sum above 0xFFFF takes IndexOverflow before any change
(42_index_memory.md R251; the fault is the spec's decision D12, log entry 15). -/
def Obligations.IndexAddFaultsAbove16Bits : Prop :=
  ∀ (x : RegIx) (s : State),
    (s.i.toNat + (readReg s x).toNat ≤ 0xFFFF → ∃ t, exec (.addI x) s = .next t ∧
      t.i.toNat = s.i.toNat + (readReg s x).toNat ∧ t.pc = s.pc + 2 ∧ OnlyIndex s t) ∧
    (0xFFFF < s.i.toNat + (readReg s x).toNat → exec (.addI x) s =
      .next { s with status := .faulted (.indexOverflow s.pc (s.i.toNat + (readReg s x).toNat)) })

/-- FX33 and FX55 over bytes of the program zone store the decimal digits of VX, or V0 to VX, at I upwards, change no other
byte, and leave I as it was (42_index_memory.md R252, R253). -/
def Obligations.StoresWriteTheirBytes : Prop :=
  ∀ (i : Instr) (s : State), storesToMemory i = true → s.mem.wf → 0x200 ≤ indexAddr s →
    indexAddr s + (storedBytes i s).length ≤ 0xEA0 →
    ∃ t, exec i s = .next t ∧
      (∀ (k : Nat) (h : k < (storedBytes i s).length), readByte t (indexAddr s + k) = .ok (storedBytes i s)[k]) ∧
      OnlyMem (indexAddr s) (storedBytes i s).length s t ∧ t.pc = s.pc + 2

/-- FX33 and FX55 that reach a rejected address stop there with AddressOutOfRange for it: the bytes before it are stored, no
other byte and no register changes (42_index_memory.md R252, R253, 60_exceptions.md R408; the order and the partial effect
are the spec's decision D10, log entry 13). -/
def Obligations.StoreFaultKeepsTheBytesBefore : Prop :=
  ∀ (i : Instr) (s : State) (n : Nat), storesToMemory i = true → s.mem.wf → n < (storedBytes i s).length →
    (∀ k, k < n → 0x200 ≤ indexAddr s + k ∧ indexAddr s + k ≤ 0xE9F) →
    ¬(0x200 ≤ indexAddr s + n ∧ indexAddr s + n ≤ 0xE9F) →
    ∃ t, exec i s = .next t ∧ t.status = .faulted (.addressOutOfRange (indexAddr s + n) .write) ∧
      (∀ (k : Nat) (h : k < (storedBytes i s).length), k < n →
        readByte t (indexAddr s + k) = .ok (storedBytes i s)[k]) ∧
      SameMemBut (indexAddr s) n s t ∧ t.pc = s.pc ∧
      SameRegsBut [] s t ∧ t.i = s.i ∧ SameStack s t ∧ SameTimers s t ∧ SameDisplay s t ∧ t.keys = s.keys ∧
      t.draws = s.draws

/-- FX65 over readable bytes loads V0 to VX from I upwards and leaves I as it was (42_index_memory.md R254). -/
def Obligations.LoadFillsTheRegisters : Prop :=
  ∀ (x : RegIx) (s : State), indexAddr s + x.val ≤ 0xE9F →
    ∃ t, exec (.ldRegs x) s = .next t ∧
      (∀ k : RegIx, k ≤ x → readByte s (indexAddr s + k.val) = .ok (readReg t k)) ∧
      OnlyRegs (regsUpTo x) s t ∧ t.pc = s.pc + 2

/-- FX65 that reaches an address of 0xEA0 or more stops there with AddressOutOfRange for it: the registers before it are
loaded, the others and all else are as before (42_index_memory.md R254; the order and the partial effect are the spec's
decision D10, log entry 13). -/
def Obligations.LoadFaultKeepsTheRegistersBefore : Prop :=
  ∀ (x : RegIx) (s : State), 0xE9F < indexAddr s + x.val →
    ∃ t, exec (.ldRegs x) s = .next t ∧
      t.status = .faulted (.addressOutOfRange (max (indexAddr s) 0xEA0) .read) ∧
      (∀ k : RegIx, indexAddr s + k.val ≤ 0xE9F → readByte s (indexAddr s + k.val) = .ok (readReg t k)) ∧
      (∀ k : RegIx, 0xE9F < indexAddr s + k.val → readReg t k = readReg s k) ∧
      t.pc = s.pc ∧ t.i = s.i ∧ SameStack s t ∧ SameTimers s t ∧ SameDisplay s t ∧ t.keys = s.keys ∧
      t.draws = s.draws ∧ SameMem s t

/-- The access rules: a read up to 0xE9F answers the byte held, a write at 0x200 to 0xE9F is made, every other access is
AddressOutOfRange for its address and direction and changes nothing (20_memory.md R82, R83; the rejection of addresses of
0x1000 and above is the spec's decision D1, log entry 8). -/
def Obligations.AccessRightsFollowTheZones : Prop :=
  ∀ (s : State) (a : Nat) (b : Byte),
    (a ≤ 0xE9F → readByte s a = .ok (s.mem.peek a)) ∧
    (0xE9F < a → readByte s a = .error (.addressOutOfRange a .read)) ∧
    (0x200 ≤ a → a ≤ 0xE9F → ∃ t, writeByte s a b = .ok t) ∧
    (a < 0x200 ∨ 0xE9F < a → writeByte s a b = .error (.addressOutOfRange a .write))

/-- A byte written reads back, every other byte reads as before, and memory keeps its canonical form (20_memory.md R87). -/
def Obligations.WrittenByteReadsBack : Prop :=
  ∀ (s t : State) (a : Nat) (b : Byte), s.mem.wf → writeByte s a b = .ok t →
    t.mem.wf ∧ readByte t a = .ok b ∧ ∀ c, c ≠ a → readByte t c = readByte s c

/-- Fetch is coherent with stores: after the two bytes of a well-formed instruction are written at PC, that instruction is
the next to execute (20_memory.md R89, R97). -/
def Obligations.StoredInstructionIsFetched : Prop :=
  ∀ (i : Instr) (s t u : State), i.wellFormed = true → s.mem.wf →
    writeByte s s.pc.toNat (highByte (encode i)) = .ok t →
    writeByte t (s.pc.toNat + 1) (lowByte (encode i)) = .ok u →
    nextInstr u = some i

/-- Two memories in canonical form with one FONT that hold the same bytes are the same data. The canonical form is the
model's own representation of the address space of 20_memory.md R80, which says nothing of it: DESIGN CHOICE, log entry
6. -/
def Obligations.EqualMemoriesAreEqualData : Prop :=
  ∀ m n : Memory, m.wf → n.wf → m.font = n.font → (∀ a, m.peek a = n.peek a) → m = n

/-! ## The display -/

/-- 00E0 clears every pixel, sets `dirty`, and changes nothing else (43_display.md R290). -/
def Obligations.ClearScreenClearsEveryPixel : Prop :=
  ∀ s : State, ∃ t, exec .cls s = .next t ∧ (∀ x < 64, ∀ y < 32, pixel t.fb x y = false) ∧ t.dirty = true ∧
    t.pc = s.pc + 2 ∧ OnlyDisplay [] s t

/-- DXYN: every pixel becomes its exclusive or with the sprite placed at (VX, VY) and clipped at the edges, VF tells whether
a set pixel was cleared, `dirty` is set, and nothing else changes; N = 0 reads no byte (43_display.md R291; VF = 0 without
a collision, the bit order, no wrap, N = 0 and the operand timing are the spec's decisions D13 to D18, log entries 16 to
19). -/
def Obligations.DrawXorsTheSprite : Prop :=
  ∀ (x y : RegIx) (n : RowCount) (s : State), n.val = 0 ∨ indexAddr s + n.val ≤ 0xEA0 →
    ∃ (t : State) (rows : List Byte), exec (.drw x y n) s = .next t ∧ rows.length = n.val ∧
      (∀ (r : Nat) (h : r < rows.length), readByte s (indexAddr s + r) = .ok rows[r]) ∧
      (∀ px < 64, ∀ py < 32, pixel t.fb px py =
        (pixel s.fb px py ^^ spriteBit rows (readReg s x).toNat (readReg s y).toNat px py)) ∧
      ((∃ px < 64, ∃ py < 32, pixel s.fb px py = true ∧
          spriteBit rows (readReg s x).toNat (readReg s y).toNat px py = true) → readReg t VF = 1) ∧
      ((∀ px < 64, ∀ py < 32, pixel s.fb px py = true →
          spriteBit rows (readReg s x).toNat (readReg s y).toNat px py = false) → readReg t VF = 0) ∧
      t.dirty = true ∧ t.pc = s.pc + 2 ∧ OnlyDisplay [VF] s t

/-- DXYN with a sprite row at 0xEA0 or more takes AddressOutOfRange for the first such address and changes no pixel, VF or
`dirty` (43_display.md R291; reading all rows first is the spec's decision D10, log entry 13). -/
def Obligations.DrawFaultChangesNothing : Prop :=
  ∀ (x y : RegIx) (n : RowCount) (s : State), 0 < n.val → 0xEA0 < indexAddr s + n.val →
    exec (.drw x y n) s =
      .next { s with status := .faulted (.addressOutOfRange (max (indexAddr s) 0xEA0) .read) }

/-- Drawing the same sprite twice at the same place restores the framebuffer, and the second draw reports a collision just
when the first set a pixel that was clear (43_display.md R291, 95_test_vectors.md S6; that it reports none otherwise rests on
VF = 0 without a collision, the spec's decision D13, log entry 16; X or Y = F is left to the general statement, since there
the first draw's VF moves the second). -/
def Obligations.DrawingTwiceRestoresTheScreen : Prop :=
  ∀ (x y : RegIx) (n : RowCount) (s t u : State), x ≠ VF → y ≠ VF → n.val = 0 ∨ indexAddr s + n.val ≤ 0xEA0 →
    exec (.drw x y n) s = .next t → exec (.drw x y n) t = .next u →
    u.fb = s.fb ∧
    (readReg u VF = 1 ↔ ∃ px < 64, ∃ py < 32, pixel s.fb px py = false ∧ pixel t.fb px py = true)

/-! ## Keys -/

/-- EX9E and EXA1 on a key number below 16 skip by the latch flag and change nothing else; on 16 or more they take
InvalidKeyIndex before any change (44_input.md R330, R331). -/
def Obligations.SkipsOnAKey : Prop :=
  ∀ (x : RegIx) (s : State),
    (∀ h : (readReg s x).toNat < 16,
      (∃ t, exec (.skp x) s = .next t ∧
        t.pc = (if s.keys[(readReg s x).toNat] = true then s.pc + 4 else s.pc + 2) ∧ OnlyPc s t) ∧
      (∃ t, exec (.sknp x) s = .next t ∧
        t.pc = (if s.keys[(readReg s x).toNat] = true then s.pc + 2 else s.pc + 4) ∧ OnlyPc s t)) ∧
    (16 ≤ (readReg s x).toNat →
      exec (.skp x) s = .next { s with status := .faulted (.invalidKeyIndex (readReg s x).toNat) } ∧
      exec (.sknp x) s = .next { s with status := .faulted (.invalidKeyIndex (readReg s x).toNat) })

/-- FX0A with no key set changes nothing; with a key set it writes the lowest set key's number into VX alone and advances
(44_input.md R332; that the wait has no state of its own is the spec's decision D22, log entry 25). -/
def Obligations.WaitForKeyTakesTheLowest : Prop :=
  ∀ (x : RegIx) (s : State),
    ((∀ k : Fin 16, s.keys[k.val] = false) → exec (.ldKey x) s = .next s) ∧
    ∀ k : Fin 16, s.keys[k.val] = true → (∀ j : Fin 16, j < k → s.keys[j.val] = false) →
      ∃ t, exec (.ldKey x) s = .next t ∧ (readReg t x).toNat = k.val ∧ t.pc = s.pc + 2 ∧ OnlyRegs [x] s t

/-- A core waiting in FX0A with no key set steps to itself but for the timers, which decay, and waits again: the poll is
idempotent (44_input.md R332, 10_state.md R49, 90_conflicts.md C11). -/
def Obligations.KeyPollOnlyDecaysTheTimers : Prop :=
  ∀ s : State, awaitingKey s = true →
    ∃ t, step s = .next t ∧ t = { s with dt := t.dt, st := t.st } ∧ t.dt.toNat = s.dt.toNat - 10 ∧
      t.st.toNat = s.st.toNat - 10 ∧ awaitingKey t = true

/-! ## Timers -/

/-- FX07 reads DT into VX, FX15 and FX18 write DT and ST from VX, and nothing else changes (45_timers.md R360, R361, R362;
R361 carries the spec's mark 'derived from rule R363' on its end-of-step value, which `TimersDecayAtTheEndOfEveryStep`
states). -/
def Obligations.TimerLoads : Prop :=
  ∀ (x : RegIx) (s : State),
    (∃ t, exec (.ldVxDT x) s = .next t ∧ readReg t x = s.dt ∧ t.pc = s.pc + 2 ∧ OnlyRegs [x] s t) ∧
    (∃ t, exec (.ldDT x) s = .next t ∧ t.dt = readReg s x ∧ t.st = s.st ∧ t.pc = s.pc + 2 ∧ OnlyTimers s t) ∧
    (∃ t, exec (.ldST x) s = .next t ∧ t.st = readReg s x ∧ t.dt = s.dt ∧ t.pc = s.pc + 2 ∧ OnlyTimers s t)

/-- At the end of every step that does not fault each timer is 10 less with a floor of 0, from the value FX15 or FX18 wrote
when the step ran one of them; a faulting step leaves both as they were (45_timers.md R363). -/
def Obligations.TimersDecayAtTheEndOfEveryStep : Prop :=
  ∀ s t : State, s.status = .running → step s = .next t →
    (t.status = .running →
      t.dt.toNat = (match nextInstr s with
        | some (.ldDT x) => (readReg s x).toNat
        | _ => s.dt.toNat) - 10 ∧
      t.st.toNat = (match nextInstr s with
        | some (.ldST x) => (readReg s x).toNat
        | _ => s.st.toNat) - 10) ∧
    (t.status ≠ .running → SameTimers s t)

/-- A timer that no instruction writes holds `max(0, t - 10 k)` after k steps that do not fault (45_timers.md R364, which
marks itself as derived from R363). -/
def Obligations.TimerAfterManySteps : Prop :=
  ∀ (k : Nat) (s t : State), s.status = .running →
    (RunsWithout writesDT k s t → t.dt.toNat = s.dt.toNat - 10 * k) ∧
    (RunsWithout writesST k s t → t.st.toNat = s.st.toNat - 10 * k)

/-! ## The whole machine -/

/-- Who may change what: I only ANNN, FX1E, FX29; SP and the stack only 00EE and 2NNN; the framebuffer and `dirty` only 00E0
and DXYN, which set `dirty`; DT only FX15, ST only FX18; memory only FX33 and FX55; the latch no instruction (10_state.md
R40, R42, R44, R45, R47, R48, 20_memory.md R91). -/
def Obligations.EachStateChangesOnlyByItsInstructions : Prop :=
  ∀ (i : Instr) (s t : State), exec i s = .next t →
    (t.i ≠ s.i → (∃ nnn, i = .ldI nnn) ∨ (∃ x, i = .addI x) ∨ ∃ x, i = .ldF x) ∧
    (¬ SameStack s t → i = .ret ∨ ∃ nnn, i = .call nnn) ∧
    (¬ SameDisplay s t → (i = .cls ∨ ∃ x y n, i = .drw x y n) ∧ t.dirty = true) ∧
    (t.dt ≠ s.dt → ∃ x, i = .ldDT x) ∧ (t.st ≠ s.st → ∃ x, i = .ldST x) ∧
    (t.mem ≠ s.mem → storesToMemory i = true) ∧ t.keys = s.keys ∧ t.mem.font = s.mem.font

/-- ST is read by no instruction: its value never reaches any other part of the state (10_state.md R44: "`ST` is written by
FX18 and read by no instruction"). Both steps take the same draw of RAND, the model's choice: log entry 2. -/
def Obligations.SoundTimerIsReadByNoInstruction : Prop :=
  ∀ (s t : State) (b : Byte), step s = .next t → ∃ c, step { s with st := b } = .next { t with st := c }

/-- `dirty` is read by no instruction and is never cleared by a step (10_state.md R47). Both steps compared take the same draw
of RAND, the model's choice: log entry 2. -/
def Obligations.StepsNeverClearDirty : Prop :=
  ∀ s t : State, step s = .next t →
    (s.dirty = true → t.dirty = true) ∧
    ∀ b : Bool, ∃ c, step { s with dirty := b } = .next { t with dirty := c }

/-! ## Reset and the host -/

/-- The state after reset, field by field (70_reset_and_hazards.md R450; all but PC and the zero of the reserved zone rest on
the spec's decisions D3 to D6 and D9, which the model follows by choice: log entries 1 and 3 to 6). -/
def Obligations.ResetLeavesTheStatedValues : Prop :=
  (∀ x : RegIx, readReg State.reset x = 0) ∧ State.reset.pc = 0x200 ∧ State.reset.i = 0 ∧ State.reset.sp.bytes = 0 ∧
  (∀ (k : Nat) (h : k < 24), State.reset.stack[k] = 0) ∧ State.reset.dt = 0 ∧ State.reset.st = 0 ∧
  (∀ x < 64, ∀ y < 32, pixel State.reset.fb x y = false) ∧ State.reset.dirty = false ∧
  (∀ k : Fin 16, State.reset.keys[k.val] = false) ∧ State.reset.status = .running ∧
  (∀ (a : Nat) (h : a < 80), readByte State.reset a = .ok defaultFont[a]) ∧
  (∀ a : Nat, 0x50 ≤ a → a ≤ 0xE9F → readByte State.reset a = .ok 0)

/-- A restart is a new construction: from any core, faulted or not, it answers the state of 70_reset_and_hazards.md R450 with
the FONT it is given, and `status` is Running again (60_exceptions.md R409; that a restart is a construction is the spec's
decision D26, log entry 23, and the values are decisions D3 to D6 and D9, log entries 1 and 3 to 6). RAND alone goes on where
it was, since it is not core state (10_state.md R50; DEDUCED, log entry 2). -/
def Obligations.RestartResetsAllButTheRandomSource : Prop :=
  ∀ (font : Vector Byte 80) (s : State), ∃ t, hostApply (.construct font) s = (t, .ok) ∧
    (∀ x : RegIx, readReg t x = 0) ∧ t.pc = 0x200 ∧ t.i = 0 ∧ t.sp.bytes = 0 ∧
    (∀ (k : Nat) (h : k < 24), t.stack[k] = 0) ∧ t.dt = 0 ∧ t.st = 0 ∧
    (∀ x < 64, ∀ y < 32, pixel t.fb x y = false) ∧ t.dirty = false ∧ (∀ k : Fin 16, t.keys[k.val] = false) ∧
    t.status = .running ∧ (∀ (a : Nat) (h : a < 80), readByte t a = .ok font[a]) ∧
    (∀ a : Nat, 0x50 ≤ a → a ≤ 0xE9F → readByte t a = .ok 0) ∧ t.draws = s.draws

/-- A program of at most 3232 bytes is stored byte for byte from 0x200 and nothing else changes; a longer one is refused
before any byte is written (20_memory.md R99, R100; the check is the spec's decision D24, log entry 21). -/
def Obligations.ProgramLoadStoresTheBytes : Prop :=
  ∀ (bytes : List Byte) (s : State), s.mem.wf →
    (bytes.length ≤ 3232 → ∃ t, loadProgram bytes s = (t, .ok) ∧
      (∀ (j : Nat) (h : j < bytes.length), readByte t (0x200 + j) = .ok bytes[j]) ∧
      OnlyMem 0x200 bytes.length s t ∧ t.pc = s.pc) ∧
    (3232 < bytes.length → loadProgram bytes s = (s, .programTooLarge))

/-- The host's writes: setKey and clearKey change one latch flag and nothing else, outside 0 to 15 they are refused with the
core unchanged, and clearing `dirty` changes nothing else (60_exceptions.md R415, R417; the refusal is the spec's decision
D21, log entry 20). -/
def Obligations.HostWritesOnlyTheLatchAndDirty : Prop :=
  ∀ s : State,
    (∀ k : Fin 16, ∃ t, setKey k.val s = (t, .ok) ∧ t = { s with keys := t.keys } ∧
      ∀ j : Fin 16, t.keys[j.val] = if j = k then true else s.keys[j.val]) ∧
    (∀ k : Fin 16, ∃ t, clearKey k.val s = (t, .ok) ∧ t = { s with keys := t.keys } ∧
      ∀ j : Fin 16, t.keys[j.val] = if j = k then false else s.keys[j.val]) ∧
    (∀ index : Nat, 16 ≤ index → setKey index s = (s, .fault (.invalidKeyIndex index)) ∧
      clearKey index s = (s, .fault (.invalidKeyIndex index))) ∧
    clearDirty s = ({ s with dirty := false }, .ok)

/-- VF_DEST_MODE (00_scope.md R10): `sequential` is the step itself; `refuse` refuses exactly the steps of a running core
whose next word is a flag-writing one with X = F, and is the step on every other. -/
def Obligations.RefuseModeOnlyDropsVfDestinations : Prop :=
  ∀ s : State,
    stepVfDest .sequential s = step s ∧
    (∀ i, s.status = .running → nextInstr s = some i → vfIsDestination i = true →
      stepVfDest .refuse s = .refused .vfDestination) ∧
    (s.status ≠ .running ∨ (nextInstr s).any vfIsDestination = false → stepVfDest .refuse s = step s)
end

