-- ==== Sys2Proof/Laws/Decode.lean ====
section
/-! SUPPORT. The fields of a packed word, and a word as the packing of its fields. -/

namespace Sys2Proof

theorem toNat_packNNN {g : Nat} (hg : g < 16) (nnn : Addr) : (packNNN g nnn).toNat = g * 4096 + nnn.toNat := by
  have := nnn.isLt
  rw [packNNN, BitVec.toNat_ofNat]
  omega

theorem toNat_packXNN {g : Nat} (hg : g < 16) (x : RegIx) (nn : Byte) :
    (packXNN g x nn).toNat = g * 4096 + x.val * 256 + nn.toNat := by
  have := nn.isLt
  have := x.isLt
  rw [packXNN, BitVec.toNat_ofNat]
  omega

theorem toNat_packXYN {g : Nat} (hg : g < 16) (x y : RegIx) (n : RowCount) :
    (packXYN g x y n).toNat = g * 4096 + x.val * 256 + y.val * 16 + n.val := by
  have := n.isLt
  have := x.isLt
  have := y.isLt
  rw [packXYN, BitVec.toNat_ofNat]
  omega

/-- The fields of a word of format NNN. -/
theorem fields_packNNN {g : Nat} (hg : g < 16) (nnn : Addr) :
    groupField (packNNN g nnn) = g ∧ nnnField (packNNN g nnn) = nnn := by
  have := nnn.isLt
  refine ⟨by rw [groupField, toNat_packNNN hg]; omega, BitVec.eq_of_toNat_eq ?_⟩
  rw [nnnField, toNat_packNNN hg, BitVec.toNat_ofNat]
  omega

/-- The fields of a word of format XNN. -/
theorem fields_packXNN {g : Nat} (hg : g < 16) (x : RegIx) (nn : Byte) :
    groupField (packXNN g x nn) = g ∧ xField (packXNN g x nn) = x ∧ nnField (packXNN g x nn) = nn := by
  have := nn.isLt
  have := x.isLt
  refine ⟨by rw [groupField, toNat_packXNN hg]; omega, Fin.ext ?_, BitVec.eq_of_toNat_eq ?_⟩
  · simp only [xField, toNat_packXNN hg, Fin.ofNat]
    omega
  · rw [nnField, toNat_packXNN hg, BitVec.toNat_ofNat]
    omega

/-- The fields of a word of format XYN. -/
theorem fields_packXYN {g : Nat} (hg : g < 16) (x y : RegIx) (n : RowCount) :
    groupField (packXYN g x y n) = g ∧ xField (packXYN g x y n) = x ∧ yField (packXYN g x y n) = y ∧
      nField (packXYN g x y n) = n := by
  have := n.isLt
  have := x.isLt
  have := y.isLt
  refine ⟨by rw [groupField, toNat_packXYN hg]; omega, Fin.ext ?_, Fin.ext ?_, Fin.ext ?_⟩ <;>
    simp only [xField, yField, nField, toNat_packXYN hg, Fin.ofNat] <;> omega

/-- Every word is the packing of its fields, in each of the three formats. -/
theorem pack_fields (w : Word) :
    packNNN (groupField w) (nnnField w) = w ∧ packXNN (groupField w) (xField w) (nnField w) = w ∧
      packXYN (groupField w) (xField w) (yField w) (nField w) = w := by
  have := w.isLt
  refine ⟨?_, ?_, ?_⟩ <;> apply BitVec.eq_of_toNat_eq <;>
    simp [packNNN, packXNN, packXYN, groupField, nnnField, xField, nnField, yField, nField, Fin.ofNat] <;> omega

/-- The two bytes of a word make the word. -/
theorem wordOfBytes_high_low (w : Word) : wordOfBytes (highByte w) (lowByte w) = w := by
  apply BitVec.eq_of_toNat_eq
  have := w.isLt
  simp only [wordOfBytes, highByte, lowByte, BitVec.toNat_ofNat]
  omega

/-- The word of two bytes is their concatenation, the first byte high. -/
theorem wordOfBytes_eq_append (hi lo : Byte) : wordOfBytes hi lo = hi ++ lo := by
  apply BitVec.eq_of_toNat_eq
  have := hi.isLt
  have := lo.isLt
  rw [wordOfBytes, BitVec.toNat_ofNat, BitVec.toNat_append, Nat.shiftLeft_eq,
    ← Nat.shiftLeft_eq, ← Nat.shiftLeft_add_eq_or_of_lt lo.isLt, Nat.shiftLeft_eq]
  omega

/-- A word that decodes to nothing is rejected under its own name (30_encoding.md R124). -/
theorem decodeWord_error {w : Word} {e : DecodeError} (h : decodeWord w = .error e) : e = .unimplemented w := by
  simp only [decodeWord, decodeGroup8, decodeGroupE, decodeGroupF] at h
  repeat' split at h
  all_goals cases h
  all_goals rfl

/-! ## Words written as concatenated fields (30_encoding.md R122) -/

theorem append_eq_packNNN (a : BitVec 4) (b : Addr) : (a ++ b : BitVec 16) = packNNN a.toNat b := by
  apply BitVec.eq_of_toNat_eq
  rw [toNat_packNNN a.isLt, BitVec.toNat_append, ← Nat.shiftLeft_add_eq_or_of_lt b.isLt, Nat.shiftLeft_eq]

theorem append_eq_packXNN (a : BitVec 4) (x : RegIx) (b : Byte) :
    (a ++ Machine.nibble x ++ b : BitVec 16) = packXNN a.toNat x b := by
  apply BitVec.eq_of_toNat_eq
  rw [toNat_packXNN a.isLt, BitVec.toNat_append, BitVec.toNat_append,
    ← Nat.shiftLeft_add_eq_or_of_lt b.isLt, ← Nat.shiftLeft_add_eq_or_of_lt (Machine.nibble x).isLt, Nat.shiftLeft_eq,
    Nat.shiftLeft_eq]
  simp; omega

theorem append_eq_packXYN (a : BitVec 4) (x y : RegIx) (n : BitVec 4) :
    (a ++ Machine.nibble x ++ Machine.nibble y ++ n : BitVec 16) = packXYN a.toNat x y n.toFin := by
  apply BitVec.eq_of_toNat_eq
  rw [toNat_packXYN a.isLt, BitVec.toNat_append, BitVec.toNat_append, BitVec.toNat_append,
    ← Nat.shiftLeft_add_eq_or_of_lt n.isLt, ← Nat.shiftLeft_add_eq_or_of_lt (Machine.nibble y).isLt,
    ← Nat.shiftLeft_add_eq_or_of_lt (Machine.nibble x).isLt, Nat.shiftLeft_eq, Nat.shiftLeft_eq,
    Nat.shiftLeft_eq]
  simp; omega

/-- The fields as bit ranges (30_encoding.md R122). -/
theorem toNat_extract_group (w : Word) : (w.extractLsb 15 12).toNat = groupField w := by
  simp [BitVec.extractLsb_toNat, groupField, Nat.shiftRight_eq_div_pow]; omega

theorem toNat_extract_n (w : Word) : (w.extractLsb 3 0).toNat = (nField w).val := by
  simp [BitVec.extractLsb_toNat, nField, Fin.ofNat]

theorem extract_nn (w : Word) : w.extractLsb 7 0 = nnField w := by
  apply BitVec.eq_of_toNat_eq
  simp [BitVec.extractLsb_toNat, nnField]

end Sys2Proof
end

