-- ==== Sys2Proof/Laws/State.lean ====
section
/-! SUPPORT. One lemma for each field and each named update of the state, so that no later proof unfolds a record update. -/

namespace Sys2Proof.Machine

@[simp] theorem advance_v (s : State) : (advance s).v = s.v := rfl
@[simp] theorem advance_pc (s : State) : (advance s).pc = s.pc + 2 := rfl
@[simp] theorem advance_i (s : State) : (advance s).i = s.i := rfl
@[simp] theorem advance_sp (s : State) : (advance s).sp = s.sp := rfl
@[simp] theorem advance_stack (s : State) : (advance s).stack = s.stack := rfl
@[simp] theorem advance_dt (s : State) : (advance s).dt = s.dt := rfl
@[simp] theorem advance_st (s : State) : (advance s).st = s.st := rfl
@[simp] theorem advance_fb (s : State) : (advance s).fb = s.fb := rfl
@[simp] theorem advance_dirty (s : State) : (advance s).dirty = s.dirty := rfl
@[simp] theorem advance_keys (s : State) : (advance s).keys = s.keys := rfl
@[simp] theorem advance_status (s : State) : (advance s).status = s.status := rfl
@[simp] theorem advance_mem (s : State) : (advance s).mem = s.mem := rfl
@[simp] theorem advance_draws (s : State) : (advance s).draws = s.draws := rfl

@[simp] theorem skipIf_v (c : Bool) (s : State) : (skipIf c s).v = s.v := rfl
@[simp] theorem skipIf_pc (c : Bool) (s : State) : (skipIf c s).pc = if c then s.pc + 4 else s.pc + 2 := rfl
@[simp] theorem skipIf_i (c : Bool) (s : State) : (skipIf c s).i = s.i := rfl
@[simp] theorem skipIf_sp (c : Bool) (s : State) : (skipIf c s).sp = s.sp := rfl
@[simp] theorem skipIf_stack (c : Bool) (s : State) : (skipIf c s).stack = s.stack := rfl
@[simp] theorem skipIf_dt (c : Bool) (s : State) : (skipIf c s).dt = s.dt := rfl
@[simp] theorem skipIf_st (c : Bool) (s : State) : (skipIf c s).st = s.st := rfl
@[simp] theorem skipIf_fb (c : Bool) (s : State) : (skipIf c s).fb = s.fb := rfl
@[simp] theorem skipIf_dirty (c : Bool) (s : State) : (skipIf c s).dirty = s.dirty := rfl
@[simp] theorem skipIf_keys (c : Bool) (s : State) : (skipIf c s).keys = s.keys := rfl
@[simp] theorem skipIf_status (c : Bool) (s : State) : (skipIf c s).status = s.status := rfl
@[simp] theorem skipIf_mem (c : Bool) (s : State) : (skipIf c s).mem = s.mem := rfl
@[simp] theorem skipIf_draws (c : Bool) (s : State) : (skipIf c s).draws = s.draws := rfl

@[simp] theorem setPc_v (s : State) (w : Word) : (setPc s w).v = s.v := rfl
@[simp] theorem setPc_pc (s : State) (w : Word) : (setPc s w).pc = w := rfl
@[simp] theorem setPc_i (s : State) (w : Word) : (setPc s w).i = s.i := rfl
@[simp] theorem setPc_sp (s : State) (w : Word) : (setPc s w).sp = s.sp := rfl
@[simp] theorem setPc_stack (s : State) (w : Word) : (setPc s w).stack = s.stack := rfl
@[simp] theorem setPc_dt (s : State) (w : Word) : (setPc s w).dt = s.dt := rfl
@[simp] theorem setPc_st (s : State) (w : Word) : (setPc s w).st = s.st := rfl
@[simp] theorem setPc_fb (s : State) (w : Word) : (setPc s w).fb = s.fb := rfl
@[simp] theorem setPc_dirty (s : State) (w : Word) : (setPc s w).dirty = s.dirty := rfl
@[simp] theorem setPc_keys (s : State) (w : Word) : (setPc s w).keys = s.keys := rfl
@[simp] theorem setPc_status (s : State) (w : Word) : (setPc s w).status = s.status := rfl
@[simp] theorem setPc_mem (s : State) (w : Word) : (setPc s w).mem = s.mem := rfl
@[simp] theorem setPc_draws (s : State) (w : Word) : (setPc s w).draws = s.draws := rfl

@[simp] theorem writeReg_v (s : State) (x : RegIx) (b : Byte) : (writeReg s x b).v = s.v.set x.val b := rfl
@[simp] theorem writeReg_pc (s : State) (x : RegIx) (b : Byte) : (writeReg s x b).pc = s.pc := rfl
@[simp] theorem writeReg_i (s : State) (x : RegIx) (b : Byte) : (writeReg s x b).i = s.i := rfl
@[simp] theorem writeReg_sp (s : State) (x : RegIx) (b : Byte) : (writeReg s x b).sp = s.sp := rfl
@[simp] theorem writeReg_stack (s : State) (x : RegIx) (b : Byte) : (writeReg s x b).stack = s.stack := rfl
@[simp] theorem writeReg_dt (s : State) (x : RegIx) (b : Byte) : (writeReg s x b).dt = s.dt := rfl
@[simp] theorem writeReg_st (s : State) (x : RegIx) (b : Byte) : (writeReg s x b).st = s.st := rfl
@[simp] theorem writeReg_fb (s : State) (x : RegIx) (b : Byte) : (writeReg s x b).fb = s.fb := rfl
@[simp] theorem writeReg_dirty (s : State) (x : RegIx) (b : Byte) : (writeReg s x b).dirty = s.dirty := rfl
@[simp] theorem writeReg_keys (s : State) (x : RegIx) (b : Byte) : (writeReg s x b).keys = s.keys := rfl
@[simp] theorem writeReg_status (s : State) (x : RegIx) (b : Byte) : (writeReg s x b).status = s.status := rfl
@[simp] theorem writeReg_mem (s : State) (x : RegIx) (b : Byte) : (writeReg s x b).mem = s.mem := rfl
@[simp] theorem writeReg_draws (s : State) (x : RegIx) (b : Byte) : (writeReg s x b).draws = s.draws := rfl

@[simp] theorem decayTimers_v (s : State) : (decayTimers s).v = s.v := rfl
@[simp] theorem decayTimers_pc (s : State) : (decayTimers s).pc = s.pc := rfl
@[simp] theorem decayTimers_i (s : State) : (decayTimers s).i = s.i := rfl
@[simp] theorem decayTimers_sp (s : State) : (decayTimers s).sp = s.sp := rfl
@[simp] theorem decayTimers_stack (s : State) : (decayTimers s).stack = s.stack := rfl
@[simp] theorem decayTimers_dt (s : State) : (decayTimers s).dt = decayTimer s.dt := rfl
@[simp] theorem decayTimers_st (s : State) : (decayTimers s).st = decayTimer s.st := rfl
@[simp] theorem decayTimers_fb (s : State) : (decayTimers s).fb = s.fb := rfl
@[simp] theorem decayTimers_dirty (s : State) : (decayTimers s).dirty = s.dirty := rfl
@[simp] theorem decayTimers_keys (s : State) : (decayTimers s).keys = s.keys := rfl
@[simp] theorem decayTimers_status (s : State) : (decayTimers s).status = s.status := rfl
@[simp] theorem decayTimers_mem (s : State) : (decayTimers s).mem = s.mem := rfl
@[simp] theorem decayTimers_draws (s : State) : (decayTimers s).draws = s.draws := rfl

@[simp] theorem construct_v (font : Vector Byte 80) (r : ResetValues) (n : Nat) :
    (State.construct font r n).v = r.v := rfl
@[simp] theorem construct_pc (font : Vector Byte 80) (r : ResetValues) (n : Nat) :
    (State.construct font r n).pc = 0x200 := rfl
@[simp] theorem construct_i (font : Vector Byte 80) (r : ResetValues) (n : Nat) :
    (State.construct font r n).i = r.i := rfl
@[simp] theorem construct_sp (font : Vector Byte 80) (r : ResetValues) (n : Nat) :
    (State.construct font r n).sp = r.sp := rfl
@[simp] theorem construct_stack (font : Vector Byte 80) (r : ResetValues) (n : Nat) :
    (State.construct font r n).stack = r.stack := rfl
@[simp] theorem construct_dt (font : Vector Byte 80) (r : ResetValues) (n : Nat) :
    (State.construct font r n).dt = r.dt := rfl
@[simp] theorem construct_st (font : Vector Byte 80) (r : ResetValues) (n : Nat) :
    (State.construct font r n).st = r.st := rfl
@[simp] theorem construct_fb (font : Vector Byte 80) (r : ResetValues) (n : Nat) :
    (State.construct font r n).fb = Vector.replicate 2048 false := rfl
@[simp] theorem construct_dirty (font : Vector Byte 80) (r : ResetValues) (n : Nat) :
    (State.construct font r n).dirty = false := rfl
@[simp] theorem construct_keys (font : Vector Byte 80) (r : ResetValues) (n : Nat) :
    (State.construct font r n).keys = Vector.replicate 16 false := rfl
@[simp] theorem construct_status (font : Vector Byte 80) (r : ResetValues) (n : Nat) :
    (State.construct font r n).status = .running := rfl
@[simp] theorem construct_mem (font : Vector Byte 80) (r : ResetValues) (n : Nat) :
    (State.construct font r n).mem = ⟨font, []⟩ := rfl
@[simp] theorem construct_draws (font : Vector Byte 80) (r : ResetValues) (n : Nat) :
    (State.construct font r n).draws = n := rfl

/-- Two states that agree on every field are equal. -/
theorem State.eq_of_fields {s t : State} (hv : s.v = t.v) (hpc : s.pc = t.pc) (hi : s.i = t.i) (hsp : s.sp = t.sp)
    (hstack : s.stack = t.stack) (hdt : s.dt = t.dt) (hst : s.st = t.st) (hfb : s.fb = t.fb) (hdirty : s.dirty = t.dirty)
    (hkeys : s.keys = t.keys) (hstatus : s.status = t.status) (hmem : s.mem = t.mem) (hdraws : s.draws = t.draws) :
    s = t := by
  cases s; cases t; simp_all

end Sys2Proof.Machine
end

