-- ==== Sys2Proof/Laws/Regs.lean ====
section
/-! SUPPORT. Reading a register after a write, and the list of registers a transfer names. -/

namespace Sys2Proof.Machine

@[simp] theorem readReg_writeReg_self (s : State) (x : RegIx) (b : Byte) : readReg (writeReg s x b) x = b := by
  simp [readReg]

theorem readReg_writeReg_ne (s : State) {x y : RegIx} (b : Byte) (h : y ≠ x) :
    readReg (writeReg s x b) y = readReg s y := by
  simp only [readReg, writeReg_v]
  exact Vector.getElem_set_ne _ _ (fun e => h (Fin.ext e.symm))

theorem readReg_writeReg (s : State) (x y : RegIx) (b : Byte) :
    readReg (writeReg s x b) y = if y = x then b else readReg s y := by
  by_cases h : y = x
  · subst h; simp
  · simp [h, readReg_writeReg_ne s b h]

/-- A state that differs from `s` in no register reads as `s` does. -/
theorem readReg_congr {s t : State} (h : t.v = s.v) (x : RegIx) : readReg t x = readReg s x := by
  simp [readReg, h]

@[simp] theorem readReg_advance (s : State) (x : RegIx) : readReg (advance s) x = readReg s x := rfl
@[simp] theorem readReg_skipIf (c : Bool) (s : State) (x : RegIx) : readReg (skipIf c s) x = readReg s x := rfl
@[simp] theorem readReg_setPc (s : State) (w : Word) (x : RegIx) : readReg (setPc s w) x = readReg s x := rfl
@[simp] theorem readReg_decayTimers (s : State) (x : RegIx) : readReg (decayTimers s) x = readReg s x := rfl

@[simp] theorem length_regsUpTo (x : RegIx) : (regsUpTo x).length = x.val + 1 := by
  simp [regsUpTo]; omega

/-- The k-th register of a transfer is Vk. -/
theorem getElem_regsUpTo (x : RegIx) (k : Nat) (h : k < (regsUpTo x).length) :
    ((regsUpTo x)[k]).val = k := by
  revert k
  revert x
  decide

theorem mem_regsUpTo (x r : RegIx) : r ∈ regsUpTo x ↔ r.val ≤ x.val := by
  revert x r
  decide

theorem nodup_regsUpTo (x : RegIx) : (regsUpTo x).Nodup := by
  revert x
  decide

@[simp] theorem length_regBytes (s : State) (x : RegIx) : (regBytes s x).length = x.val + 1 := by
  simp [regBytes]

/-- The k-th byte FX55 stores is Vk. -/
theorem getElem_regBytes (s : State) (x : RegIx) (k : Nat) (h : k < (regBytes s x).length) (hk : k < 16) :
    (regBytes s x)[k] = readReg s ⟨k, hk⟩ := by
  simp only [regBytes, List.getElem_map]
  congr 1
  exact Fin.ext (getElem_regsUpTo x k (by simpa using h))

/-- What `writeFlagThen` leaves: the result in X, the flag in VF unless X is VF, the rest as before. -/
theorem readReg_writeFlagThen (s : State) (flag result : Byte) (x r : RegIx) :
    readReg (writeFlagThen s flag x result) r = if r = x then result else if r = VF then flag else readReg s r := by
  simp [writeFlagThen, readReg_writeReg]

end Sys2Proof.Machine
end

