-- ==== Sys2Proof/Laws/Display.lean ====
section
/-! SUPPORT. Pixels: what one toggled pixel does, and when two framebuffers are equal. -/

namespace Sys2Proof.Machine

/-- A pixel of the screen is the flat sequence's element y * 64 + x (10_state.md R45). -/
theorem pixel_eq (fb : Frame) {x y : Nat} (hx : x < 64) (hy : y < 32) : pixel fb x y = fb[y * 64 + x] := by
  rw [pixel, dif_pos ⟨hx, hy⟩]

theorem pixel_off (fb : Frame) {x y : Nat} (h : ¬(x < 64 ∧ y < 32)) : pixel fb x y = false := by
  rw [pixel, dif_neg h]

/-- A toggled place off the screen changes nothing. -/
theorem toggle_off (b : Blit) {x y : Nat} (h : ¬(x < 64 ∧ y < 32)) : toggle b x y = b := by
  rw [toggle, dif_neg h]

/-- A toggled pixel is inverted, every other pixel is as before. -/
theorem pixel_toggle (b : Blit) {x y px py : Nat} (hx : px < 64) (hy : py < 32) :
    pixel (toggle b x y).fb px py = (pixel b.fb px py ^^ decide (px = x ∧ py = y)) := by
  by_cases h : x < 64 ∧ y < 32
  · rw [toggle, dif_pos h]
    simp only [pixel_eq _ hx hy, Vector.getElem_set]
    by_cases e : px = x ∧ py = y
    · obtain ⟨rfl, rfl⟩ := e
      simp [pixel_eq _ hx hy]
    · rw [if_neg (by omega)]
      simp [e]
  · rw [toggle_off b h, decide_eq_false (by omega), Bool.xor_false]

/-- A toggled pixel is a collision when it was set. -/
theorem hit_toggle (b : Blit) (x y : Nat) : (toggle b x y).hit = (b.hit || pixel b.fb x y) := by
  by_cases h : x < 64 ∧ y < 32
  · rw [toggle, dif_pos h]
  · rw [toggle_off b h, pixel_off _ h, Bool.or_false]

/-- Framebuffers with the same pixels are equal. -/
theorem frame_ext {f g : Frame} (h : ∀ x < 64, ∀ y < 32, pixel f x y = pixel g x y) : f = g := by
  apply Vector.ext
  intro k hk
  have := h (k % 64) (by omega) (k / 64) (by omega)
  rw [pixel_eq _ (by omega) (by omega), pixel_eq _ (by omega) (by omega)] at this
  simpa only [show k / 64 * 64 + k % 64 = k by omega] using this

/-- The cleared framebuffer has no set pixel. -/
theorem pixel_blank (x y : Nat) : pixel (Vector.replicate 2048 false) x y = false := by
  by_cases h : x < 64 ∧ y < 32
  · rw [pixel_eq _ h.1 h.2, Vector.getElem_replicate]
  · exact pixel_off _ h

/-! ## A sprite -/

/-- Whether a sprite row at x0 has its bit set at x: the most significant bit is leftmost (43_display.md R291). -/
def rowBit (row : Byte) (x0 x : Nat) : Bool :=
  decide (x0 ≤ x) && decide (x < x0 + 8) && row.getLsbD (7 - (x - x0))

/-- The columns of a row drawn in any order, as pixels. -/
theorem pixel_fold (row : Byte) (x0 y : Nat) (cs : List Nat) (b : Blit) {px py : Nat} (hx : px < 64)
    (hy : py < 32) (hnd : cs.Nodup) :
    pixel (cs.foldl (fun acc c => if row.getLsbD (7 - c) then toggle acc (x0 + c) y else acc) b).fb px py =
      (pixel b.fb px py ^^
        (decide (py = y) && decide (x0 ≤ px) && decide (px - x0 ∈ cs) && row.getLsbD (7 - (px - x0)))) := by
  induction cs generalizing b with
  | nil => simp
  | cons c cs ih =>
    rw [List.nodup_cons] at hnd
    rw [List.foldl_cons, ih _ hnd.2]
    split
    · rename_i hr
      rw [pixel_toggle _ hx hy, Bool.xor_assoc]
      congr 1
      by_cases e : px = x0 + c
      · subst e; simp [hr, hnd.1]
      · by_cases e2 : x0 ≤ px
        · have : ¬ px - x0 = c := by omega
          simp [e, this]
        · simp [e, e2]
    · rename_i hr
      congr 1
      by_cases e2 : px - x0 = c
      · simp [e2, hr]
      · simp [e2]

/-- One row inverts the pixels its set bits fall on. -/
theorem pixel_blitRow (row : Byte) (x0 y : Nat) (b : Blit) {px py : Nat} (hx : px < 64) (hy : py < 32) :
    pixel (blitRow row x0 y b).fb px py = (pixel b.fb px py ^^ (decide (py = y) && rowBit row x0 px)) := by
  rw [blitRow, pixel_fold row x0 y _ b hx hy (by decide)]
  congr 1
  unfold rowBit
  by_cases e : x0 ≤ px
  · have : (px - x0 ∈ [0,1,2,3,4,5,6,7]) ↔ px < x0 + 8 := by simp; omega
    simp only [this, Bool.and_assoc]
  · simp [e]

/-- The columns of a row drawn in any order, as a collision. -/
theorem hit_fold (row : Byte) (x0 y : Nat) (cs : List Nat) (b : Blit) (hnd : cs.Nodup) :
    (cs.foldl (fun acc c => if row.getLsbD (7 - c) then toggle acc (x0 + c) y else acc) b).hit = true ↔
      b.hit = true ∨ ∃ c ∈ cs, row.getLsbD (7 - c) = true ∧ pixel b.fb (x0 + c) y = true := by
  induction cs generalizing b with
  | nil => simp
  | cons c cs ih =>
    rw [List.nodup_cons] at hnd
    rw [List.foldl_cons, ih _ hnd.2]
    split
    · rename_i hr
      rw [hit_toggle, Bool.or_eq_true]
      constructor
      · rintro ((h | h) | ⟨d, hd, h1, h2⟩)
        · exact .inl h
        · exact .inr ⟨c, by simp, hr, h⟩
        · refine .inr ⟨d, by simp [hd], h1, ?_⟩
          by_cases on : x0 + d < 64 ∧ y < 32
          · rw [pixel_toggle _ on.1 on.2] at h2
            have : ¬ d = c := by rintro rfl; exact hnd.1 hd
            simpa [this] using h2
          · rw [pixel_off _ on] at h2; cases h2
      · rintro (h | ⟨d, hd, h1, h2⟩)
        · exact .inl (.inl h)
        · rcases List.mem_cons.1 hd with rfl | hd
          · exact .inl (.inr h2)
          · refine .inr ⟨d, hd, h1, ?_⟩
            by_cases on : x0 + d < 64 ∧ y < 32
            · rw [pixel_toggle _ on.1 on.2]
              have : ¬ d = c := fun e => hnd.1 (e ▸ hd)
              simpa [this] using h2
            · rw [pixel_off _ on] at h2; cases h2
    · rename_i hr
      constructor
      · rintro (h | ⟨d, hd, h1, h2⟩)
        · exact .inl h
        · exact .inr ⟨d, by simp [hd], h1, h2⟩
      · rintro (h | ⟨d, hd, h1, h2⟩)
        · exact .inl h
        · rcases List.mem_cons.1 hd with rfl | hd
          · exact absurd h1 hr
          · exact .inr ⟨d, hd, h1, h2⟩

/-- One row collides when a set bit falls on a set pixel. -/
theorem hit_blitRow (row : Byte) (x0 y : Nat) (b : Blit) :
    (blitRow row x0 y b).hit = true ↔ b.hit = true ∨ ∃ x, rowBit row x0 x = true ∧ pixel b.fb x y = true := by
  rw [blitRow, hit_fold _ _ _ _ _ (by decide)]
  apply or_congr_right
  constructor
  · rintro ⟨c, hc, h1, h2⟩
    have : c < 8 := by simp at hc; omega
    exact ⟨x0 + c, by simp [rowBit, h1, this], h2⟩
  · rintro ⟨x, h1, h2⟩
    simp only [rowBit, Bool.and_eq_true, decide_eq_true_eq] at h1
    refine ⟨x - x0, by simp; omega, h1.2, ?_⟩
    rwa [show x0 + (x - x0) = x by omega]

theorem spriteBit_cons (row : Byte) (rows : List Byte) (x0 y0 x y : Nat) :
    spriteBit (row :: rows) x0 y0 x y = if y = y0 then rowBit row x0 x else spriteBit rows x0 (y0 + 1) x y := by
  unfold spriteBit rowBit
  by_cases e : y = y0
  · subst e; simp
  · rw [if_neg e]
    by_cases e2 : y0 ≤ y
    · rw [show y - y0 = (y - (y0 + 1)) + 1 by omega]
      simp [e2, show y0 + 1 ≤ y by omega]
    · simp [e2, show ¬ y0 + 1 ≤ y by omega]

/-- What a draw makes of each pixel: its exclusive or with the sprite (43_display.md R291). -/
theorem pixel_blitRows (x0 y : Nat) (rows : List Byte) (b : Blit) {px py : Nat} (hx : px < 64) (hy : py < 32) :
    pixel (blitRows x0 y rows b).fb px py = (pixel b.fb px py ^^ spriteBit rows x0 y px py) := by
  induction rows generalizing y b with
  | nil => simp [blitRows, spriteBit]
  | cons row rows ih =>
    rw [blitRows, ih, pixel_blitRow _ _ _ _ hx hy, spriteBit_cons]
    by_cases e : py = y
    · subst e
      have : spriteBit rows x0 (py + 1) px py = false := by simp [spriteBit]
      simp [this]
    · simp [e]

/-- When a draw collides: a set bit falls on a set pixel of the screen (43_display.md R291). -/
theorem hit_blitRows (x0 y : Nat) (rows : List Byte) (b : Blit) :
    (blitRows x0 y rows b).hit = true ↔
      b.hit = true ∨ ∃ px < 64, ∃ py < 32, pixel b.fb px py = true ∧ spriteBit rows x0 y px py = true := by
  induction rows generalizing y b with
  | nil => simp [blitRows, spriteBit]
  | cons row rows ih =>
    rw [blitRows, ih, hit_blitRow, or_assoc]
    apply or_congr_right
    constructor
    · rintro (⟨x, h1, h2⟩ | ⟨px, hpx, py, hpy, h1, h2⟩)
      · by_cases on : x < 64 ∧ y < 32
        · exact ⟨x, on.1, y, on.2, h2, by rw [spriteBit_cons, if_pos rfl]; exact h1⟩
        · rw [pixel_off _ on] at h2; cases h2
      · have hne : ¬ py = y := by rintro rfl; simp [spriteBit] at h2
        refine ⟨px, hpx, py, hpy, ?_, by rw [spriteBit_cons, if_neg hne]; exact h2⟩
        rw [pixel_blitRow _ _ _ _ hpx hpy] at h1
        simpa [hne] using h1
    · rintro ⟨px, hpx, py, hpy, h1, h2⟩
      rw [spriteBit_cons] at h2
      split at h2
      · rename_i e; subst e
        exact .inl ⟨px, h2, h1⟩
      · rename_i e
        refine .inr ⟨px, hpx, py, hpy, ?_, h2⟩
        rw [pixel_blitRow _ _ _ _ hpx hpy]
        simpa [e] using h1

end Sys2Proof.Machine
end

