-- ==== Sys2Proof/Laws/Memory.lean ====
section
/-! SUPPORT. The laws of memory: the zone table as bounds, a read after a write, and the canonical form, which every
operation keeps and which makes equal memories equal data. -/

namespace Sys2Proof.Machine

/-! ## Zones -/

/-- The zone table as a chain of bounds. -/
theorem regionOf_eq (a : Nat) : regionOf a =
    if a < 0x50 then some ⟨.font, 0x000, 0x04F, true, false⟩
    else if a < 0x200 then some ⟨.reserved, 0x050, 0x1FF, true, false⟩
    else if a < 0xEA0 then some ⟨.program, 0x200, 0xE9F, true, true⟩
    else if a < 0x1000 then some ⟨.dead, 0xEA0, 0xFFF, false, false⟩
    else none := by
  simp only [regionOf, regions, List.find?_cons, List.find?_nil]
  grind

/-- Reads are permitted up to 0xE9F (20_memory.md R82). -/
theorem readable_iff (a : Nat) : readable a = true ↔ a ≤ 0xE9F := by
  rw [readable, regionOf_eq]
  grind

/-- Writes are permitted at 0x200 to 0xE9F (20_memory.md R83). -/
theorem writable_iff (a : Nat) : writable a = true ↔ 0x200 ≤ a ∧ a ≤ 0xE9F := by
  rw [writable, regionOf_eq]
  grind

theorem readable_of_writable {a : Nat} (h : writable a = true) : readable a = true :=
  (readable_iff a).2 ((writable_iff a).1 h).2

/-! ## Cells -/

theorem lookupCell_eraseCell_ne {a b : Nat} (h : b ≠ a) (cs : List Host.Cell) :
    lookupCell (eraseCell a cs) b = lookupCell cs b := by
  induction cs with
  | nil => rfl
  | cons c cs ih =>
    rw [eraseCell]
    by_cases hc : c.1 = a
    · rw [if_pos hc, lookupCell, if_neg (by omega)]
    · rw [if_neg hc, lookupCell, lookupCell, ih]

theorem lookupCell_eq_none {a : Nat} {cs : List Host.Cell} (h : ∀ c ∈ cs, a < c.1) : lookupCell cs a = none := by
  induction cs with
  | nil => rfl
  | cons c cs ih =>
    have hc := h c (by simp)
    rw [lookupCell, if_neg (by omega)]
    exact ih fun d hd => h d (by simp [hd])

theorem lookupCell_eraseCell_self {a : Nat} {cs : List Host.Cell} (h : cs.Pairwise fun c d => c.1 < d.1) :
    lookupCell (eraseCell a cs) a = none := by
  induction cs with
  | nil => rfl
  | cons c cs ih =>
    rw [List.pairwise_cons] at h
    unfold eraseCell
    split
    · rename_i hc; exact lookupCell_eq_none (by rw [← hc]; exact h.1)
    · rename_i hc; rw [lookupCell, if_neg hc]; exact ih h.2

theorem lookupCell_insertCell (a : Nat) (b : Byte) (cs : List Host.Cell) (d : Nat) :
    lookupCell (insertCell a b cs) d = if d = a then some b else lookupCell cs d := by
  induction cs with
  | nil => simp [insertCell, lookupCell, eq_comm]
  | cons c cs ih =>
    unfold insertCell
    split
    · simp [lookupCell, eq_comm]
    · split
      · rename_i h1 h2
        simp only [lookupCell]
        by_cases hd : d = a
        · simp [hd]
        · rw [if_neg (by omega), if_neg hd, if_neg (by omega)]
      · simp only [lookupCell, ih]
        by_cases hd : d = a
        · rename_i h1 h2; rw [if_neg (by omega), if_pos hd, if_pos hd]
        · simp [hd]

theorem mem_eraseCell {a : Nat} {cs : List Host.Cell} {c : Host.Cell} (h : c ∈ eraseCell a cs) : c ∈ cs := by
  induction cs with
  | nil => exact h
  | cons d cs ih =>
    unfold eraseCell at h
    split at h
    · exact List.mem_cons_of_mem _ h
    · rcases List.mem_cons.1 h with rfl | h
      · exact List.mem_cons_self
      · exact List.mem_cons_of_mem _ (ih h)

theorem mem_insertCell {a : Nat} {b : Byte} {cs : List Host.Cell} {c : Host.Cell} (h : c ∈ insertCell a b cs) :
    c = (a, b) ∨ c ∈ cs := by
  induction cs with
  | nil => exact .inl (by simpa [insertCell] using h)
  | cons d cs ih =>
    unfold insertCell at h
    split at h
    · exact List.mem_cons.1 h
    · split at h
      · rcases List.mem_cons.1 h with h | h
        · exact .inl h
        · exact .inr (List.mem_cons_of_mem _ h)
      · rcases List.mem_cons.1 h with rfl | h
        · exact .inr List.mem_cons_self
        · exact (ih h).imp id (List.mem_cons_of_mem _)

theorem pairwise_eraseCell (a : Nat) {cs : List Host.Cell} (h : cs.Pairwise fun c d => c.1 < d.1) :
    (eraseCell a cs).Pairwise fun c d => c.1 < d.1 := by
  induction cs with
  | nil => exact h
  | cons c cs ih =>
    rw [List.pairwise_cons] at h
    unfold eraseCell
    split
    · exact h.2
    · exact List.pairwise_cons.2 ⟨fun d hd => h.1 d (mem_eraseCell hd), ih h.2⟩

theorem pairwise_insertCell (a : Nat) (b : Byte) {cs : List Host.Cell} (h : cs.Pairwise fun c d => c.1 < d.1) :
    (insertCell a b cs).Pairwise fun c d => c.1 < d.1 := by
  induction cs with
  | nil => simp [insertCell]
  | cons c cs ih =>
    have hc := List.pairwise_cons.1 h
    unfold insertCell
    split
    · rename_i hlt
      refine List.pairwise_cons.2 ⟨fun d hd => ?_, h⟩
      rcases List.mem_cons.1 hd with rfl | hd
      · exact hlt
      · exact lt_trans hlt (hc.1 d hd)
    · split
      · rename_i heq
        exact List.pairwise_cons.2 ⟨fun d hd => by simpa [heq] using hc.1 d hd, hc.2⟩
      · refine List.pairwise_cons.2 ⟨fun d hd => ?_, ih hc.2⟩
        rcases mem_insertCell hd with rfl | hd
        · dsimp only; omega
        · exact hc.1 d hd

/-! ## Memory -/

@[simp] theorem Memory.poke_font (m : Memory) (a : Nat) (b : Byte) : (m.poke a b).font = m.font := rfl

@[simp] theorem Memory.unlisted_poke (m : Memory) (a : Nat) (b : Byte) (d : Nat) :
    (m.poke a b).unlisted d = m.unlisted d := rfl

/-- A byte reads back as written, every other byte as before. -/
theorem Memory.peek_poke (m : Memory) (hm : m.wf) (a : Nat) (b : Byte) (d : Nat) :
    (m.poke a b).peek d = if d = a then b else m.peek d := by
  unfold Memory.peek
  rw [Memory.unlisted_poke]
  unfold Memory.poke
  dsimp only
  split
  · rename_i hb
    by_cases hd : d = a
    · subst hd; simp [lookupCell_eraseCell_self hm.1, hb]
    · simp [hd, lookupCell_eraseCell_ne hd]
  · rw [lookupCell_insertCell]
    by_cases hd : d = a <;> simp [hd]

/-- A byte not written reads as before, whatever the form of the list. -/
theorem Memory.peek_poke_ne (m : Memory) {a d : Nat} (b : Byte) (h : d ≠ a) : (m.poke a b).peek d = m.peek d := by
  unfold Memory.peek
  rw [Memory.unlisted_poke]
  unfold Memory.poke
  dsimp only
  split
  · rw [lookupCell_eraseCell_ne h]
  · rw [lookupCell_insertCell, if_neg h]

/-- A write in the writable zone keeps the canonical form. -/
theorem Memory.wf_poke {m : Memory} (hm : m.wf) {a : Nat} (ha : writable a = true) (b : Byte) : (m.poke a b).wf := by
  unfold Memory.wf
  simp only [Memory.unlisted_poke]
  unfold Memory.poke
  dsimp only
  split
  · exact ⟨pairwise_eraseCell a hm.1, fun c hc => hm.2 c (mem_eraseCell hc)⟩
  · rename_i hb
    refine ⟨pairwise_insertCell a b hm.1, fun c hc => ?_⟩
    rcases mem_insertCell hc with rfl | hc
    · exact ⟨ha, hb⟩
    · exact hm.2 c hc

/-- Constructed memory lists nothing and has the canonical form. -/
theorem Memory.wf_empty (font : Vector Byte 80) : (Memory.mk font []).wf := by simp [Memory.wf]

theorem lookupCell_mem {cs : List Host.Cell} {a : Nat} {b : Byte} (h : lookupCell cs a = some b) : (a, b) ∈ cs := by
  induction cs with
  | nil => simp [lookupCell] at h
  | cons c cs ih =>
    rw [lookupCell] at h
    split at h
    · rename_i hc; obtain ⟨c1, c2⟩ := c; simp_all
    · exact List.mem_cons_of_mem _ (ih h)

/-- In a sorted list every cell is the one its address looks up. -/
theorem lookupCell_of_mem {cs : List Host.Cell} (h : cs.Pairwise fun c d => c.1 < d.1) {c : Host.Cell} (hc : c ∈ cs) :
    lookupCell cs c.1 = some c.2 := by
  induction cs with
  | nil => simp at hc
  | cons d cs ih =>
    rw [List.pairwise_cons] at h
    rw [lookupCell]
    rcases List.mem_cons.1 hc with rfl | hc
    · simp
    · rw [if_neg (by have := h.1 c hc; omega), ih h.2 hc]

/-- Outside the writable zone a byte holds what it held at construction (20_memory.md R85, R86). -/
theorem Memory.peek_of_not_writable {m : Memory} (hm : m.wf) {a : Nat} (ha : writable a = false) :
    m.peek a = m.unlisted a := by
  unfold Memory.peek
  cases h : lookupCell m.cells a with
  | none => rfl
  | some b =>
    have := (hm.2 _ (lookupCell_mem h)).1
    simp [ha] at this

/-! ## Accesses -/

theorem readByte_ok {s : State} {a : Nat} (h : a ≤ 0xE9F) : readByte s a = .ok (s.mem.peek a) := by
  simp [readByte, (readable_iff a).2 h]

theorem readByte_error {s : State} {a : Nat} (h : 0xE9F < a) :
    readByte s a = .error (.addressOutOfRange a .read) := by
  have : readable a ≠ true := fun hr => by have := (readable_iff a).1 hr; omega
  simp [readByte, this]

theorem writeByte_ok {s : State} {a : Nat} (b : Byte) (h : 0x200 ≤ a ∧ a ≤ 0xE9F) :
    writeByte s a b = .ok { s with mem := s.mem.poke a b } := by
  simp [writeByte, (writable_iff a).2 h]

theorem writeByte_error {s : State} {a : Nat} (b : Byte) (h : ¬(0x200 ≤ a ∧ a ≤ 0xE9F)) :
    writeByte s a b = .error (.addressOutOfRange a .write) := by
  have : writable a ≠ true := fun hw => h ((writable_iff a).1 hw)
  simp [writeByte, this]

/-- A write that was made: its address lies in the program zone, and it changed that byte alone. -/
theorem writeByte_inv {s t : State} {a : Nat} {b : Byte} (h : writeByte s a b = .ok t) :
    (0x200 ≤ a ∧ a ≤ 0xE9F) ∧ t = { s with mem := s.mem.poke a b } := by
  by_cases ha : 0x200 ≤ a ∧ a ≤ 0xE9F
  · rw [writeByte_ok b ha] at h
    cases h
    exact ⟨ha, rfl⟩
  · rw [writeByte_error b ha] at h
    cases h

/-- A read depends on memory only. -/
theorem readByte_congr {s t : State} (h : t.mem = s.mem) (a : Nat) : readByte t a = readByte s a := by
  simp [readByte, h]

@[simp] theorem readByte_advance (s : State) (a : Nat) : readByte (advance s) a = readByte s a := rfl
@[simp] theorem readByte_writeReg (s : State) (x : RegIx) (b : Byte) (a : Nat) :
    readByte (writeReg s x b) a = readByte s a := rfl
@[simp] theorem readByte_decayTimers (s : State) (a : Nat) : readByte (decayTimers s) a = readByte s a := rfl

/-- What `readBytes` answers: the bytes at `a` to `a + n - 1` when all may be read. -/
theorem readBytes_ok (s : State) (a n : Nat) (h : a + n ≤ 0xEA0) :
    readBytes s a n = .ok ((List.range n).map fun k => s.mem.peek (a + k)) := by
  induction n generalizing a with
  | zero => rfl
  | succ n ih =>
    rw [readBytes, readByte_ok (by omega), ih (a + 1) (by omega), List.range_succ_eq_map]
    simp [Nat.add_assoc, Nat.add_comm 1]

/-- The first rejected read ends `readBytes`. -/
theorem readBytes_error (s : State) (a n : Nat) (hn : 0 < n) (h : 0xEA0 < a + n) :
    readBytes s a n = .error (.addressOutOfRange (max a 0xEA0) .read) := by
  induction n generalizing a with
  | zero => omega
  | succ n ih =>
    rw [readBytes]
    by_cases ha : a ≤ 0xE9F
    · rw [readByte_ok ha]
      simp only
      rw [ih (a + 1) (by omega) (by omega)]
      simp only [Except.error.injEq, Fault.addressOutOfRange.injEq, and_true]
      omega
    · rw [readByte_error (by omega)]
      simp only [Except.error.injEq, Fault.addressOutOfRange.injEq, and_true]
      omega

/-- `readBytes` answers as many bytes as it was asked for. -/
theorem length_of_readBytes {s : State} {a n : Nat} {bs : List Byte} (h : readBytes s a n = .ok bs) :
    bs.length = n := by
  induction n generalizing a bs with
  | zero => simp [readBytes] at h; simp [h]
  | succ n ih =>
    rw [readBytes] at h
    split at h
    · simp at h
    · split at h
      · simp at h
      · rename_i h2
        simp only [Except.ok.injEq] at h
        rw [← h, List.length_cons, ih h2]

/-- Reads that are all permitted, or none: the bytes held. -/
theorem readBytes_rows {s : State} {a : Nat} {n : Nat} (h : n = 0 ∨ a + n ≤ 0xEA0) :
    ∃ rows, readBytes s a n = .ok rows ∧ rows.length = n ∧
      ∀ (r : Nat) (h : r < rows.length), readByte s (a + r) = .ok rows[r] := by
  rcases h with h | h
  · subst h; exact ⟨[], rfl, rfl, by simp⟩
  · refine ⟨_, readBytes_ok s a n h, by simp, fun r hr => ?_⟩
    simp at hr
    rw [readByte_ok (by omega)]; simp

/-- Everything a run of stores can do: it changes memory alone, keeps the canonical form and the font, and stops
with AddressOutOfRange for the first address that rejects the write, or not at all. -/
theorem storeBytes_cases (a : Nat) (bs : List Byte) (s : State) :
    ∃ m o, storeBytes a bs s = ({ s with mem := m }, o) ∧ m.font = s.mem.font ∧ (s.mem.wf → m.wf) ∧
      (o = none ∨ ∃ k, k < bs.length ∧ ¬(0x200 ≤ a + k ∧ a + k ≤ 0xE9F) ∧ (∀ j, j < k → 0x200 ≤ a + j ∧ a + j ≤ 0xE9F) ∧ o = some (.addressOutOfRange (a + k) .write)) := by
  induction bs generalizing a s with
  | nil => exact ⟨s.mem, none, rfl, rfl, id, .inl rfl⟩
  | cons b bs ih =>
    by_cases ha : 0x200 ≤ a ∧ a ≤ 0xE9F
    · obtain ⟨m, o, h1, h2, h3, h4⟩ := ih (a + 1) { s with mem := s.mem.poke a b }
      refine ⟨m, o, ?_, by simpa using h2, fun h => h3 (Memory.wf_poke h ((writable_iff a).2 ha) b), ?_⟩
      · rw [storeBytes, writeByte_ok b ha]; exact h1
      · rcases h4 with h4 | ⟨k, hk, h5, h6, h4⟩
        · exact .inl h4
        · refine .inr ⟨k + 1, by simpa using hk, by omega, fun j hj => ?_, by rw [h4]; congr 2; omega⟩
          cases j with
          | zero => simpa using ha
          | succ j => have := h6 j (by omega); omega
    · refine ⟨s.mem, some (.addressOutOfRange a .write), ?_, rfl, id, .inr ⟨0, by simp, by simpa using ha, by simp, rfl⟩⟩
      rw [storeBytes, writeByte_error b ha]

/-- Stores of which all are permitted: the bytes read back, every other byte reads as before. -/
theorem storeBytes_ok (a : Nat) (bs : List Byte) (s : State) (hm : s.mem.wf)
    (h : bs ≠ [] → 0x200 ≤ a ∧ a + bs.length ≤ 0xEA0) :
    ∃ m, storeBytes a bs s = ({ s with mem := m }, none) ∧ m.font = s.mem.font ∧ m.wf ∧
      ∀ d, m.peek d = if a ≤ d then (bs[d - a]?).getD (s.mem.peek d) else s.mem.peek d := by
  induction bs generalizing a s with
  | nil => exact ⟨s.mem, rfl, rfl, hm, fun d => by simp⟩
  | cons b bs ih =>
    have ha := h (by simp)
    simp only [List.length_cons] at ha
    have hw : 0x200 ≤ a ∧ a ≤ 0xE9F := by omega
    obtain ⟨m, h1, h2, h3, h4⟩ := ih (a + 1) { s with mem := s.mem.poke a b }
      (Memory.wf_poke hm ((writable_iff a).2 hw) b) (fun _ => by omega)
    refine ⟨m, by rw [storeBytes, writeByte_ok b hw]; exact h1, by simpa using h2, h3, fun d => ?_⟩
    rw [h4]
    dsimp only
    rw [Memory.peek_poke _ hm]
    by_cases hd : a + 1 ≤ d
    · rw [if_pos hd, if_neg (by omega), if_pos (by omega), show d - a = (d - (a + 1)) + 1 by omega]
      simp
    · rw [if_neg hd]
      by_cases hda : d = a
      · subst hda; simp
      · rw [if_neg hda, if_neg (by omega)]

/-- Stores that reach a rejected address: those before it are made, and the fault names it. -/
theorem storeBytes_fault (a : Nat) (bs : List Byte) (s : State) (n : Nat) (hn : n < bs.length)
    (hbefore : ∀ k, k < n → 0x200 ≤ a + k ∧ a + k ≤ 0xE9F) (hat : ¬(0x200 ≤ a + n ∧ a + n ≤ 0xE9F)) :
    storeBytes a bs s = ((storeBytes a (bs.take n) s).1, some (.addressOutOfRange (a + n) .write)) := by
  induction bs generalizing a s n with
  | nil => simp at hn
  | cons b bs ih =>
    cases n with
    | zero => rw [storeBytes, writeByte_error b (by simpa using hat)]; simp [storeBytes]
    | succ n =>
      have hw : 0x200 ≤ a ∧ a ≤ 0xE9F := by simpa using hbefore 0 (by omega)
      rw [storeBytes, writeByte_ok b hw]
      simp only [List.take_succ_cons]
      rw [storeBytes, writeByte_ok b hw]
      simp only
      rw [ih (a + 1) { s with mem := s.mem.poke a b } n (by simpa using hn)
        (fun k hk => by have := hbefore (k + 1) (by omega); omega) (by omega)]
      congr 2
      simp only [Fault.addressOutOfRange.injEq, and_true]
      omega

/-- Everything a run of register loads can do: it changes the general registers alone, the listed ones at most, and stops
with AddressOutOfRange for a read or not at all. -/
theorem loadRegsFrom_cases (a : Nat) (xs : List RegIx) (s : State) :
    ∃ v o, loadRegsFrom a xs s = ({ s with v := v }, o) ∧
      (∀ r, r ∉ xs → readReg { s with v := v } r = readReg s r) ∧
      (o = none ∨ ∃ k, k < xs.length ∧ 0xEA0 ≤ a + k ∧ o = some (.addressOutOfRange (a + k) .read)) := by
  induction xs generalizing a s with
  | nil => exact ⟨s.v, none, rfl, fun _ _ => rfl, .inl rfl⟩
  | cons x xs ih =>
    by_cases ha : a ≤ 0xE9F
    · obtain ⟨v, o, h1, h2, h3⟩ := ih (a + 1) (writeReg s x (s.mem.peek a))
      refine ⟨v, o, ?_, fun r hr => ?_, ?_⟩
      · rw [loadRegsFrom, readByte_ok ha]; exact h1
      · rw [List.mem_cons, not_or] at hr
        have := h2 r hr.2
        rw [readReg_writeReg_ne s _ hr.1] at this
        exact this
      · rcases h3 with h3 | ⟨k, hk, h4, h3⟩
        · exact .inl h3
        · exact .inr ⟨k + 1, by simpa using hk, by omega, by rw [h3]; congr 2; omega⟩
    · refine ⟨s.v, some (.addressOutOfRange a .read), ?_, fun _ _ => rfl, .inr ⟨0, by simp, by omega, rfl⟩⟩
      rw [loadRegsFrom, readByte_error (by omega)]

/-- Register loads of which all are permitted: each listed register holds its byte, the others are as before. -/
theorem loadRegsFrom_ok (a : Nat) (xs : List RegIx) (s : State) (hx : xs.Nodup) (h : a + xs.length ≤ 0xEA0) :
    ∃ v, loadRegsFrom a xs s = ({ s with v := v }, none) ∧
      (∀ (k : Nat) (hk : k < xs.length), readReg { s with v := v } xs[k] = s.mem.peek (a + k)) ∧
      (∀ r, r ∉ xs → readReg { s with v := v } r = readReg s r) := by
  induction xs generalizing a s with
  | nil => exact ⟨s.v, rfl, by simp, fun _ _ => rfl⟩
  | cons x xs ih =>
    simp only [List.length_cons] at h
    rw [List.nodup_cons] at hx
    obtain ⟨v, h1, h2, h3⟩ := ih (a + 1) (writeReg s x (s.mem.peek a)) hx.2 (by omega)
    refine ⟨v, by rw [loadRegsFrom, readByte_ok (by omega)]; exact h1, fun k hk => ?_, fun r hr => ?_⟩
    · cases k with
      | zero =>
        have := h3 x hx.1
        rw [readReg_writeReg_self] at this
        exact this
      | succ k =>
        have := h2 k (by simpa using hk)
        simp only [List.getElem_cons_succ]
        rw [show a + (k + 1) = a + 1 + k by omega]
        exact this
    · rw [List.mem_cons, not_or] at hr
      have := h3 r hr.2
      rw [readReg_writeReg_ne s _ hr.1] at this
      exact this

/-- Register loads that reach a rejected address: those before it are made, and the fault names it. -/
theorem loadRegsFrom_fault (a : Nat) (xs : List RegIx) (s : State) (n : Nat) (hn : n < xs.length)
    (hbefore : a + n ≤ 0xEA0) (hat : 0xE9F < a + n) :
    loadRegsFrom a xs s = ((loadRegsFrom a (xs.take n) s).1, some (.addressOutOfRange (a + n) .read)) := by
  induction xs generalizing a s n with
  | nil => simp at hn
  | cons x xs ih =>
    cases n with
    | zero => rw [loadRegsFrom, readByte_error (by simpa using hat)]; simp [loadRegsFrom]
    | succ n =>
      rw [loadRegsFrom, readByte_ok (by omega)]
      simp only [List.take_succ_cons]
      rw [loadRegsFrom, readByte_ok (by omega)]
      simp only
      rw [ih (a + 1) _ n (by simpa using hn) (by omega) (by omega)]
      congr 2
      simp only [Fault.addressOutOfRange.injEq, and_true]
      omega

end Sys2Proof.Machine
end

