-- ==== Sys2Proof/Laws/Operands.lean ====
section
/-! SUPPORT. What the operand forms, the flag values and the call stack's operations answer, as numbers. -/

namespace Sys2Proof.Machine

@[simp] theorem toNat_zextAddr (nnn : Addr) : (zextAddr nnn).toNat = nnn.toNat := by
  have := nnn.isLt
  rw [zextAddr, BitVec.toNat_setWidth]
  omega

/-- The borrow flag compares its operands (41_alu.md R207, R209). -/
theorem borrowFlag_eq (a b : Byte) : borrowFlag a b = if a.toNat < b.toNat then 1 else 0 := by
  simp only [borrowFlag, flagByte, decide_eq_true_eq]
  congr 1
  simp only [eq_iff_iff]
  omega

/-- The carry flag as a bound on the exact sum (41_alu.md R206). -/
theorem carryFlag_eq (a b : Byte) : carryFlag a b = if 256 ≤ a.toNat + b.toNat then 1 else 0 := by
  simp [carryFlag, flagByte]

/-- A difference reduced modulo 256 (41_alu.md R199). -/
theorem toNat_ofInt_sub (a b : Byte) :
    (BitVec.ofInt 8 ((a.toNat : Int) - b.toNat)).toNat = (a.toNat + 256 - b.toNat) % 256 := by
  have := a.isLt
  have := b.isLt
  simp only [BitVec.toNat_ofInt]
  omega

theorem toNat_shrFlag (b : Byte) : (shrFlag b).toNat = b.toNat % 2 := by revert b; decide

theorem toNat_shlFlag (b : Byte) : (shlFlag b).toNat = b.toNat / 128 := by revert b; decide

/-- The timer decay is the floor of 0 on the number (45_timers.md R363). -/
@[simp] theorem toNat_decayTimer (t : Byte) : (decayTimer t).toNat = t.toNat - 10 := by
  have := t.isLt
  rw [decayTimer, BitVec.toNat_ofNat]
  omega

/-- The lowest set key, if any (44_input.md R332). -/
theorem firstKey_eq_some {s : State} {k : Fin 16} (hk : s.keys[k.val] = true)
    (hlow : ∀ j : Fin 16, j < k → s.keys[j.val] = false) : firstKey s = some k := by
  have hlist : ([0, 1, 2, 3, 4, 5, 6, 7, 8, 9, 10, 11, 12, 13, 14, 15] : List (Fin 16)) = List.finRange 16 := by
    decide
  rw [firstKey, hlist]
  refine List.find?_eq_some_iff_getElem.2 ⟨by simpa using hk, k.val, by simp, by simp, fun j hj => ?_⟩
  simpa using hlow ⟨j, by omega⟩ hj

theorem firstKey_eq_none {s : State} (h : ∀ k : Fin 16, s.keys[k.val] = false) : firstKey s = none := by
  rw [firstKey, List.find?_eq_none]
  intro k _
  simp [h k]

/-! ## The call stack -/

/-- A push with room: the entry, SP, nothing else (10_state.md R42). -/
theorem pushWord_some {s : State} (w : Word) (h : s.sp.entries.val < 24) :
    pushWord s w = some { s with
      stack := s.stack.set s.sp.entries.val w
      sp := ⟨⟨s.sp.entries.val + 1, by omega⟩⟩ } := by
  rw [pushWord, dif_pos h]

theorem pushWord_none {s : State} (w : Word) (h : s.sp.entries.val = 24) : pushWord s w = none := by
  rw [pushWord, dif_neg (by omega)]

/-- A pop with an entry: the entry, SP, nothing else (10_state.md R42). -/
theorem popWord_some {s : State} (h : 0 < s.sp.entries.val) :
    popWord s = some (s.stack[s.sp.entries.val - 1], { s with sp := ⟨⟨s.sp.entries.val - 1, by omega⟩⟩ }) := by
  rw [popWord, dif_pos h]

theorem popWord_none {s : State} (h : s.sp.entries.val = 0) : popWord s = none := by
  rw [popWord, dif_neg (by omega)]

end Sys2Proof.Machine
end

