-- ==== Sys2Proof/Laws/Frames.lean ====
section
/-! SUPPORT. The frames of Safety.lean from the shape of the next state: a proof gives the record update, these lemmas the
frame. -/

namespace Sys2Proof.Machine

theorem SameMemBut.of_mem {s t : State} (a n : Nat) (h : t.mem = s.mem) : SameMemBut a n s t :=
  fun b _ => readByte_congr h b

theorem OnlyPc.of_setPc (s : State) (w : Word) : OnlyPc s (setPc s w) :=
  ⟨fun _ _ => rfl, rfl, ⟨rfl, rfl⟩, ⟨rfl, rfl⟩, ⟨rfl, rfl⟩, ⟨rfl, rfl, rfl⟩, fun _ => rfl⟩

theorem OnlyPc.of_skipIf (c : Bool) (s : State) : OnlyPc s (skipIf c s) :=
  ⟨fun _ _ => rfl, rfl, ⟨rfl, rfl⟩, ⟨rfl, rfl⟩, ⟨rfl, rfl⟩, ⟨rfl, rfl, rfl⟩, fun _ => rfl⟩

theorem OnlyRegs.of_eq {s t : State} {xs : List RegIx} (hv : SameRegsBut xs s t)
    (h : t = { s with pc := t.pc, v := t.v }) : OnlyRegs xs s t := by
  rw [h] at *
  exact ⟨hv, rfl, ⟨rfl, rfl⟩, ⟨rfl, rfl⟩, ⟨rfl, rfl⟩, ⟨rfl, rfl, rfl⟩, fun _ => rfl⟩

theorem OnlyIndex.of_eq {s t : State} (h : t = { s with pc := t.pc, i := t.i }) : OnlyIndex s t := by
  rw [h]
  exact ⟨fun _ _ => rfl, ⟨rfl, rfl⟩, ⟨rfl, rfl⟩, ⟨rfl, rfl⟩, ⟨rfl, rfl, rfl⟩, fun _ => rfl⟩

theorem OnlyStack.of_eq {s t : State} (h : t = { s with pc := t.pc, sp := t.sp, stack := t.stack }) :
    OnlyStack s t := by
  rw [h]
  exact ⟨fun _ _ => rfl, rfl, ⟨rfl, rfl⟩, ⟨rfl, rfl⟩, ⟨rfl, rfl, rfl⟩, fun _ => rfl⟩

theorem OnlyTimers.of_eq {s t : State} (h : t = { s with pc := t.pc, dt := t.dt, st := t.st }) : OnlyTimers s t := by
  rw [h]
  exact ⟨fun _ _ => rfl, rfl, ⟨rfl, rfl⟩, ⟨rfl, rfl⟩, ⟨rfl, rfl, rfl⟩, fun _ => rfl⟩

theorem OnlyDisplay.of_eq {s t : State} {xs : List RegIx} (hv : SameRegsBut xs s t)
    (h : t = { s with pc := t.pc, v := t.v, fb := t.fb, dirty := t.dirty }) : OnlyDisplay xs s t := by
  rw [h] at *
  exact ⟨hv, rfl, ⟨rfl, rfl⟩, ⟨rfl, rfl⟩, ⟨rfl, rfl, rfl⟩, fun _ => rfl⟩

theorem OnlyMem.of_eq {s t : State} {a n : Nat} (hm : SameMemBut a n s t)
    (h : t = { s with pc := t.pc, mem := t.mem }) : OnlyMem a n s t := by
  rw [h] at *
  exact ⟨fun _ _ => rfl, rfl, ⟨rfl, rfl⟩, ⟨rfl, rfl⟩, ⟨rfl, rfl⟩, ⟨rfl, rfl, rfl⟩, hm⟩

/-- One register written, then PC: the frame of the plain register instructions. -/
theorem OnlyRegs.of_writeReg (s : State) (x : RegIx) (b : Byte) : OnlyRegs [x] s (advance (writeReg s x b)) :=
  OnlyRegs.of_eq (fun _ hr => readReg_writeReg_ne s b (by simpa using hr)) rfl

/-- VF and a register written, then PC: the frame of the flag-writing instructions. -/
theorem OnlyRegs.of_writeFlag (s : State) (x : RegIx) (flag b : Byte) :
    OnlyRegs [x, VF] s (advance (writeReg (writeReg s VF flag) x b)) := by
  refine OnlyRegs.of_eq (fun r hr => ?_) rfl
  simp only [List.mem_cons, List.mem_nil_iff, or_false, not_or] at hr
  simp [readReg_writeReg, hr]

/-- The bytes FX55 stores, as Safety.lean lists them. -/
theorem storedBytes_ldMem (s : State) (x : RegIx) : storedBytes (.ldMem x) s = regBytes s x := by
  apply List.ext_getElem
  · simp [storedBytes]
  · intro k h1 h2
    have hx := x.isLt
    simp only [storedBytes, List.length_map, List.length_range] at h1
    rw [getElem_regBytes _ _ _ _ (by omega)]
    simp only [storedBytes, List.getElem_map, List.getElem_range]
    congr 1
    apply Fin.ext
    simp
    omega

end Sys2Proof.Machine
end

