-- ==== Sys2Proof/Laws/Exec.lean ====
section
/-! SUPPORT. The meanings that branch, one equation per branch: what each answers, under the condition on the state that
selects it. The meanings without a branch are equal by definition to what they answer. -/

namespace Sys2Proof.Machine

theorem takeFault_eq_next {f : Fault} {s t : State} (h : takeFault f s = .next t) : t = { s with status := .faulted f } := by
  rw [takeFault] at h; cases h; rfl

/-! ## The call stack -/

theorem exec_ret_of_pos {s : State} (h : 0 < s.sp.entries.val) : exec .ret s = .next { s with
    pc := s.stack[s.sp.entries.val - 1] + 2, sp := ⟨⟨s.sp.entries.val - 1, by omega⟩⟩ } := by
  rw [exec, execRet, popWord_some h]; rfl

theorem exec_ret_of_zero {s : State} (h : s.sp.entries.val = 0) :
    exec .ret s = .next { s with status := .faulted (.stackUnderflow s.pc) } := by
  rw [exec, execRet, popWord_none h]; rfl

theorem exec_call_of_lt {s : State} (nnn : Addr) (h : s.sp.entries.val < 24) : exec (.call nnn) s = .next { s with
    pc := zextAddr nnn, stack := s.stack.set s.sp.entries.val s.pc, sp := ⟨⟨s.sp.entries.val + 1, by omega⟩⟩ } := by
  rw [exec, execCall, pushWord_some _ h]; rfl

theorem exec_call_of_full {s : State} (nnn : Addr) (h : s.sp.entries.val = 24) :
    exec (.call nnn) s = .next { s with status := .faulted (.stackOverflow s.pc) } := by
  rw [exec, execCall, pushWord_none _ h]; rfl

/-! ## The index register and memory -/

theorem exec_addI_of_le {s : State} (x : RegIx) (h : s.i.toNat + (readReg s x).toNat ≤ 0xFFFF) :
    exec (.addI x) s = .next (advance { s with i := BitVec.ofNat 16 (s.i.toNat + (readReg s x).toNat) }) := by
  rw [exec, execAddI, if_neg (by omega)]

theorem exec_addI_of_gt {s : State} (x : RegIx) (h : 0xFFFF < s.i.toNat + (readReg s x).toNat) : exec (.addI x) s =
    .next { s with status := .faulted (.indexOverflow s.pc (s.i.toNat + (readReg s x).toNat)) } := by
  rw [exec, execAddI, if_pos h]; rfl

/-- The two storing instructions are one run of stores (42_index_memory.md R252, R253). -/
theorem exec_of_storesToMemory {i : Instr} (h : storesToMemory i = true) (s : State) :
    exec i s = finishTransfer (storeBytes (indexAddr s) (storedBytes i s) s) := by
  cases i <;> cases h
  · rfl
  · rename_i x; rw [exec, execLdMem, storedBytes_ldMem]

/-- Everything a storing instruction can do: it changes memory and PC, or stops at the first rejected address with the
font and the canonical form kept. -/
theorem exec_store_cases {i : Instr} (h : storesToMemory i = true) (s : State) :
    ∃ m : Memory, m.font = s.mem.font ∧ (s.mem.wf → m.wf) ∧
      (exec i s = .next (advance { s with mem := m }) ∨
        ∃ k, k < (storedBytes i s).length ∧ ¬(0x200 ≤ indexAddr s + k ∧ indexAddr s + k ≤ 0xE9F) ∧
          (∀ j, j < k → 0x200 ≤ indexAddr s + j ∧ indexAddr s + j ≤ 0xE9F) ∧
          exec i s = .next
            { s with mem := m, status := .faulted (.addressOutOfRange (indexAddr s + k) .write) }) := by
  obtain ⟨m, o, e, hf, hw, ho⟩ := storeBytes_cases (indexAddr s) (storedBytes i s) s
  refine ⟨m, hf, hw, ?_⟩
  rw [exec_of_storesToMemory h, e]
  rcases ho with rfl | ⟨k, h1, h2, h3, rfl⟩
  · exact .inl rfl
  · exact .inr ⟨k, h1, h2, h3, rfl⟩

/-- Everything FX65 can do: it changes the listed registers and PC, or stops at the first rejected address. -/
theorem exec_ldRegs_cases (x : RegIx) (s : State) :
    ∃ v : Vector Byte 16, (∀ r, r ∉ regsUpTo x → readReg { s with v := v } r = readReg s r) ∧
      (exec (.ldRegs x) s = .next (advance { s with v := v }) ∨
        ∃ k, k ≤ x.val ∧ 0xEA0 ≤ indexAddr s + k ∧ exec (.ldRegs x) s = .next
          { s with v := v, status := .faulted (.addressOutOfRange (indexAddr s + k) .read) }) := by
  obtain ⟨v, o, e, hr, ho⟩ := loadRegsFrom_cases (indexAddr s) (regsUpTo x) s
  refine ⟨v, hr, ?_⟩
  rw [exec, execLdRegs, e]
  rcases ho with rfl | ⟨k, h1, h2, rfl⟩
  · exact .inl rfl
  · exact .inr ⟨k, by simp at h1; omega, h2, rfl⟩

/-! ## The display -/

theorem exec_drw_of_rows {s : State} (x y : RegIx) {n : RowCount} {rows : List Byte}
    (h : readBytes s (indexAddr s) n.val = .ok rows) : exec (.drw x y n) s =
      let b := blitRows (readReg s x).toNat (readReg s y).toNat rows ⟨s.fb, false⟩
      .next (advance (writeReg { s with fb := b.fb, dirty := true } VF (collisionFlag b.hit))) := by
  rw [exec, execDrw, h]

theorem exec_drw_of_fault {s : State} (x y : RegIx) {n : RowCount} (hn : 0 < n.val) (h : 0xEA0 < indexAddr s + n.val) :
    exec (.drw x y n) s =
      .next { s with status := .faulted (.addressOutOfRange (max (indexAddr s) 0xEA0) .read) } := by
  rw [exec, execDrw, readBytes_error _ _ _ hn h]; rfl

/-! ## Keys -/

theorem keyOperand_of_lt {s : State} {x : RegIx} (h : (readReg s x).toNat < 16) :
    keyOperand s x = .ok s.keys[(readReg s x).toNat] := by
  rw [keyOperand, dif_pos h]

theorem keyOperand_of_ge {s : State} {x : RegIx} (h : 16 ≤ (readReg s x).toNat) :
    keyOperand s x = .error (.invalidKeyIndex (readReg s x).toNat) := by
  rw [keyOperand, dif_neg (by omega)]

end Sys2Proof.Machine
end

