-- ==== Sys2Proof/Laws/PerInstr.lean ====
section
/-! SUPPORT. Per instruction: the encoding of an instruction lies in its row of spec/opcode_table.json, that is, its word
under the row's mask is the row's match (30_encoding.md R122, R123). -/

namespace Sys2Proof.Laws.TableRow

open Sys2Proof Sys2Proof.Machine

/-- The word of the instruction, under the mask of its opcode-table row, is the row's match word. -/
def Statement (i : Instr) : Prop := encode i &&& rowMask i = rowMatch i

/-! The fixed fields of a word, by its format: a mask keeps them and clears the others. -/

theorem row_NNN (g : BitVec 4) (nnn : Addr) : packNNN g.toNat nnn &&& 0xF000#16 = g ++ 0#12 := by
  rw [← append_eq_packNNN, show 0xF000#16 = BitVec.allOnes 4 ++ 0#12 from rfl, BitVec.and_append, BitVec.and_allOnes,
    BitVec.and_zero]

theorem row_XNN (g : BitVec 4) (x : RegIx) (nn : Byte) : packXNN g.toNat x nn &&& 0xF000#16 = g ++ 0#4 ++ 0#8 := by
  rw [← append_eq_packXNN, show 0xF000#16 = BitVec.allOnes 4 ++ 0#4 ++ 0#8 from rfl, BitVec.and_append,
    BitVec.and_append, BitVec.and_allOnes, BitVec.and_zero, BitVec.and_zero]

theorem row_X (g : BitVec 4) (x : RegIx) (ff : Byte) : packXNN g.toNat x ff &&& 0xF0FF#16 = g ++ 0#4 ++ ff := by
  rw [← append_eq_packXNN, show 0xF0FF#16 = BitVec.allOnes 4 ++ 0#4 ++ BitVec.allOnes 8 from rfl, BitVec.and_append,
    BitVec.and_append, BitVec.and_allOnes, BitVec.and_zero, BitVec.and_allOnes]

theorem row_XY (g : BitVec 4) (x y : RegIx) (f : BitVec 4) :
    packXYN g.toNat x y f.toFin &&& 0xF00F#16 = g ++ 0#4 ++ 0#4 ++ f := by
  rw [← append_eq_packXYN, show 0xF00F#16 = BitVec.allOnes 4 ++ 0#4 ++ 0#4 ++ BitVec.allOnes 4 from rfl,
    BitVec.and_append, BitVec.and_append, BitVec.and_append, BitVec.and_allOnes, BitVec.and_zero, BitVec.and_zero,
    BitVec.and_allOnes]

theorem row_XYN (g : BitVec 4) (x y n : RegIx) :
    packXYN g.toNat x y n &&& 0xF000#16 = g ++ 0#4 ++ 0#4 ++ 0#4 := by
  rw [show packXYN g.toNat x y n = packXYN g.toNat x y (nibble n).toFin from rfl, ← append_eq_packXYN,
    show 0xF000#16 = BitVec.allOnes 4 ++ 0#4 ++ 0#4 ++ 0#4 from rfl,
    BitVec.and_append, BitVec.and_append, BitVec.and_append, BitVec.and_allOnes, BitVec.and_zero, BitVec.and_zero,
    BitVec.and_zero]

theorem ret : Statement .ret := rfl
theorem sys (nnn : Addr) : Statement (.sys nnn) := row_NNN 0x0#4 nnn
theorem jp (nnn : Addr) : Statement (.jp nnn) := row_NNN 0x1#4 nnn
theorem call (nnn : Addr) : Statement (.call nnn) := row_NNN 0x2#4 nnn
theorem seByte (x : RegIx) (nn : Byte) : Statement (.seByte x nn) := row_XNN 0x3#4 x nn
theorem sneByte (x : RegIx) (nn : Byte) : Statement (.sneByte x nn) := row_XNN 0x4#4 x nn
theorem seReg (x y : RegIx) : Statement (.seReg x y) := row_XY 0x5#4 x y 0x0#4
theorem sneReg (x y : RegIx) : Statement (.sneReg x y) := row_XY 0x9#4 x y 0x0#4
theorem jpV0 (nnn : Addr) : Statement (.jpV0 nnn) := row_NNN 0xB#4 nnn
theorem ldByte (x : RegIx) (nn : Byte) : Statement (.ldByte x nn) := row_XNN 0x6#4 x nn
theorem addByte (x : RegIx) (nn : Byte) : Statement (.addByte x nn) := row_XNN 0x7#4 x nn
theorem ldReg (x y : RegIx) : Statement (.ldReg x y) := row_XY 0x8#4 x y 0x0#4
theorem orReg (x y : RegIx) : Statement (.orReg x y) := row_XY 0x8#4 x y 0x1#4
theorem andReg (x y : RegIx) : Statement (.andReg x y) := row_XY 0x8#4 x y 0x2#4
theorem xorReg (x y : RegIx) : Statement (.xorReg x y) := row_XY 0x8#4 x y 0x3#4
theorem addReg (x y : RegIx) : Statement (.addReg x y) := row_XY 0x8#4 x y 0x4#4
theorem subReg (x y : RegIx) : Statement (.subReg x y) := row_XY 0x8#4 x y 0x5#4
theorem shr (x y : RegIx) : Statement (.shr x y) := row_XY 0x8#4 x y 0x6#4
theorem subn (x y : RegIx) : Statement (.subn x y) := row_XY 0x8#4 x y 0x7#4
theorem shl (x y : RegIx) : Statement (.shl x y) := row_XY 0x8#4 x y 0xE#4
theorem rnd (x : RegIx) (nn : Byte) : Statement (.rnd x nn) := row_XNN 0xC#4 x nn
theorem ldI (nnn : Addr) : Statement (.ldI nnn) := row_NNN 0xA#4 nnn
theorem addI (x : RegIx) : Statement (.addI x) := row_X 0xF#4 x 0x1E#8
theorem ldB (x : RegIx) : Statement (.ldB x) := row_X 0xF#4 x 0x33#8
theorem ldMem (x : RegIx) : Statement (.ldMem x) := row_X 0xF#4 x 0x55#8
theorem ldRegs (x : RegIx) : Statement (.ldRegs x) := row_X 0xF#4 x 0x65#8
theorem cls : Statement .cls := rfl
theorem drw (x y : RegIx) (n : RowCount) : Statement (.drw x y n) := row_XYN 0xD#4 x y n
theorem ldF (x : RegIx) : Statement (.ldF x) := row_X 0xF#4 x 0x29#8
theorem skp (x : RegIx) : Statement (.skp x) := row_X 0xE#4 x 0x9E#8
theorem sknp (x : RegIx) : Statement (.sknp x) := row_X 0xE#4 x 0xA1#8
theorem ldKey (x : RegIx) : Statement (.ldKey x) := row_X 0xF#4 x 0x0A#8
theorem ldVxDT (x : RegIx) : Statement (.ldVxDT x) := row_X 0xF#4 x 0x07#8
theorem ldDT (x : RegIx) : Statement (.ldDT x) := row_X 0xF#4 x 0x15#8
theorem ldST (x : RegIx) : Statement (.ldST x) := row_X 0xF#4 x 0x18#8

end Sys2Proof.Laws.TableRow
end

