-- ==== Sys2Proof/Laws/Step.lean ====
section
/-! SUPPORT. What the step answers, by the stage of the instruction cycle that ends it (30_encoding.md R130). -/

namespace Sys2Proof.Machine

theorem step_of_faulted {s : State} {f : Fault} (h : s.status = .faulted f) : step s = .fault f := by
  simp only [step, h]

theorem step_of_fetch_error {s : State} {f : Fault} (h : s.status = .running) (hf : fetch s = .error f) :
    step s = .next { s with status := .faulted f } := by
  simp only [step, h, hf, takeFault]

theorem step_of_decode_error {s : State} {w : Word} {e : DecodeError} (h : s.status = .running) (hf : fetch s = .ok w)
    (hd : decodeWord w = .error e) : step s = .next { s with status := .faulted (.unimplementedOpcode w s.pc) } := by
  simp only [step, h, hf, hd, takeFault]

theorem step_of_nextInstr {s : State} {i : Instr} (h : s.status = .running) (hi : nextInstr s = some i) :
    step s = endStep (exec i s) := by
  unfold nextInstr at hi
  cases hf : fetch s with
  | error f => simp [hf] at hi
  | ok w =>
    cases hd : decodeWord w with
    | error e => simp [hf, hd] at hi
    | ok j =>
      simp only [hf, hd, Option.some.injEq] at hi
      subst hi
      simp only [step, h, hf, hd]

/-- A fetch that fails names the byte it could not read; one that answers read both bytes (20_memory.md R82). -/
theorem fetch_cases (s : State) :
    (∃ a, 0xE9F < a ∧ s.pc.toNat ≤ a ∧ a ≤ s.pc.toNat + 1 ∧ fetch s = .error (.addressOutOfRange a .read)) ∨
      (s.pc.toNat + 1 ≤ 0xE9F ∧ fetch s = .ok (wordOfBytes (s.mem.peek s.pc.toNat) (s.mem.peek (s.pc.toNat + 1)))) := by
  unfold fetch
  by_cases h1 : s.pc.toNat ≤ 0xE9F
  · rw [readByte_ok h1]
    by_cases h2 : s.pc.toNat + 1 ≤ 0xE9F
    · rw [readByte_ok h2]; exact .inr ⟨h2, rfl⟩
    · rw [readByte_error (by omega)]; exact .inl ⟨_, by omega, by omega, by omega, rfl⟩
  · rw [readByte_error (by omega)]; exact .inl ⟨_, by omega, by omega, by omega, rfl⟩

/-- Everything a step of a running core can do: the fetch or the decode faults and `status` alone changes, or an instruction
executes and the timers decay unless it faulted. -/
theorem step_cases {s t : State} (h : s.status = .running) (ht : step s = .next t) :
    (nextInstr s = none ∧ ∃ f, t = { s with status := .faulted f } ∧
      ((∃ a, 0xE9F < a ∧ s.pc.toNat ≤ a ∧ a ≤ s.pc.toNat + 1 ∧ f = .addressOutOfRange a .read) ∨
        ∃ w, f = .unimplementedOpcode w s.pc)) ∨
    ∃ i, nextInstr s = some i ∧ s.pc.toNat + 1 ≤ 0xE9F ∧ ∃ u, exec i s = .next u ∧
      ((u.status = .running ∧ t = decayTimers u) ∨ (u.status ≠ .running ∧ t = u)) := by
  rcases fetch_cases s with ⟨a, h1, h2, h3, hf⟩ | ⟨hb, hf⟩
  · left
    rw [step_of_fetch_error h hf] at ht; cases ht
    exact ⟨by simp [nextInstr, hf], _, rfl, .inl ⟨a, h1, h2, h3, rfl⟩⟩
  · generalize wordOfBytes _ _ = w at hf
    cases hd : decodeWord w with
    | error e =>
      left
      rw [step_of_decode_error h hf hd] at ht; cases ht
      exact ⟨by simp [nextInstr, hf, hd], _, rfl, .inr ⟨w, rfl⟩⟩
    | ok i =>
      right
      have hi : nextInstr s = some i := by simp [nextInstr, hf, hd]
      rw [step_of_nextInstr h hi] at ht
      refine ⟨i, hi, hb, ?_⟩
      cases he : exec i s with
      | next u =>
        rw [he, endStep] at ht
        refine ⟨u, rfl, ?_⟩
        split at ht
        · rename_i hu; cases ht; exact .inl ⟨hu, rfl⟩
        · rename_i hu; cases ht; exact .inr ⟨hu, rfl⟩
      | fault f => rw [he] at ht; cases ht
      | refused r => rw [he] at ht; cases ht

end Sys2Proof.Machine
end

