-- ==== Sys2Proof/Tests/Slice0.lean ====
section
/-! SUPPORT. Tests: ill-formed terms refused, a word of every row decoded, one-step vectors of 95_test_vectors.md (each test
names the vector its expected values come from), and for every statement with hypotheses a state and operands that meet
them, at the edges of their ranges. -/

namespace Sys2Proof.Tests

open Sys2Proof Sys2Proof.Machine

/-! ## Helpers -/

/-- The state after one step that runs the word at PC. -/
def after (w : Nat) (s : State) : Option State :=
  match step (s.withFetchWord 16 w) with
  | .next t => some t
  | _ => none

/-- The state after reset, some of V0, V1 and VF and the index register set. -/
def start (v0 v1 vF : Byte) (i : Word) : State :=
  { writeReg (writeReg (writeReg State.reset 0 v0) 1 v1) 0xF vF with i := i }

/-- The state with bytes stored from 0x300. -/
def holding (bs : List Byte) (s : State) : State := (storeBytes 0x300 bs s).1

/-- The state with `n` live stack entries, all of them `w`. -/
def nested (n : Fin 25) (w : Word) : State := { State.reset with sp := ⟨n⟩, stack := Vector.replicate 24 w }

/-- The state with the listed keys set. -/
def pressing (ks : List (Fin 16)) (s : State) : State := ks.foldl (fun s k => (setKey k.val s).1) s

/-- PC, VF and the general register asked for. -/
def view (x : RegIx) (s : State) : Word × Byte × Byte := (s.pc, readReg s x, readReg s VF)

/-! ## Well-formedness: each check refuses an ill-formed term -/

theorem test_sys_00E0_is_ill_formed : (Instr.sys 0x0E0).wellFormed = false := by decide
theorem test_sys_00EE_is_ill_formed : (Instr.sys 0x0EE).wellFormed = false := by decide
theorem test_sys_neighbours_are_well_formed :
    (Instr.sys 0x0DF).wellFormed = true ∧ (Instr.sys 0x0E1).wellFormed = true ∧ (Instr.sys 0x0ED).wellFormed = true ∧
      (Instr.sys 0x0EF).wellFormed = true := by decide

/-! ## Decoding: the bits of one word of every row, written out from the encodings of 40 to 45 -/

theorem test_decode_ret : decodeWord 0b0000000011101110 = .ok .ret := by decide
theorem test_decode_sys : decodeWord 0b0000001100000000 = .ok (.sys 0x300) := by decide
theorem test_decode_jp : decodeWord 0b0001001000110100 = .ok (.jp 0x234) := by decide
theorem test_decode_call : decodeWord 0b0010001100000000 = .ok (.call 0x300) := by decide
theorem test_decode_seByte : decodeWord 0b0011000100010000 = .ok (.seByte 1 0x10) := by decide
theorem test_decode_sneByte : decodeWord 0b0100000100010001 = .ok (.sneByte 1 0x11) := by decide
theorem test_decode_seReg : decodeWord 0b0101001000110000 = .ok (.seReg 2 3) := by decide
theorem test_decode_sneReg : decodeWord 0b1001001000110000 = .ok (.sneReg 2 3) := by decide
theorem test_decode_jpV0 : decodeWord 0b1011010100000001 = .ok (.jpV0 0x501) := by decide
theorem test_decode_ldByte : decodeWord 0b0110101010101011 = .ok (.ldByte 0xA 0xAB) := by decide
theorem test_decode_addByte : decodeWord 0b0111000000001010 = .ok (.addByte 0 10) := by decide
theorem test_decode_ldReg : decodeWord 0b1000000000010000 = .ok (.ldReg 0 1) := by decide
theorem test_decode_orReg : decodeWord 0b1000001001110001 = .ok (.orReg 2 7) := by decide
theorem test_decode_andReg : decodeWord 0b1000001001110010 = .ok (.andReg 2 7) := by decide
theorem test_decode_xorReg : decodeWord 0b1000001001110011 = .ok (.xorReg 2 7) := by decide
theorem test_decode_addReg : decodeWord 0b1000111100010100 = .ok (.addReg 0xF 1) := by decide
theorem test_decode_subReg : decodeWord 0b1000000000010101 = .ok (.subReg 0 1) := by decide
theorem test_decode_shr : decodeWord 0b1000000011110110 = .ok (.shr 0 0xF) := by decide
theorem test_decode_subn : decodeWord 0b1000000000010111 = .ok (.subn 0 1) := by decide
theorem test_decode_shl : decodeWord 0b1000111111111110 = .ok (.shl 0xF 0xF) := by decide
theorem test_decode_rnd : decodeWord 0b1100000000001111 = .ok (.rnd 0 0x0F) := by decide
theorem test_decode_ldI : decodeWord 0b1010000100100011 = .ok (.ldI 0x123) := by decide
theorem test_decode_addI : decodeWord 0b1111000000011110 = .ok (.addI 0) := by decide
theorem test_decode_ldB : decodeWord 0b1111110000110011 = .ok (.ldB 0xC) := by decide
theorem test_decode_ldMem : decodeWord 0b1111000101010101 = .ok (.ldMem 1) := by decide
theorem test_decode_ldRegs : decodeWord 0b1111001001100101 = .ok (.ldRegs 2) := by decide
theorem test_decode_cls : decodeWord 0b0000000011100000 = .ok .cls := by decide
theorem test_decode_drw : decodeWord 0b1101000000010010 = .ok (.drw 0 1 2) := by decide
theorem test_decode_ldF : decodeWord 0b1111001000101001 = .ok (.ldF 2) := by decide
theorem test_decode_skp : decodeWord 0b1110001110011110 = .ok (.skp 3) := by decide
theorem test_decode_sknp : decodeWord 0b1110001110100001 = .ok (.sknp 3) := by decide
theorem test_decode_ldKey : decodeWord 0b1111001000001010 = .ok (.ldKey 2) := by decide
theorem test_decode_ldVxDT : decodeWord 0b1111010000000111 = .ok (.ldVxDT 4) := by decide
theorem test_decode_ldDT : decodeWord 0b1111001100010101 = .ok (.ldDT 3) := by decide
theorem test_decode_ldST : decodeWord 0b1111000000011000 = .ok (.ldST 0) := by decide

/-- D-C5 to D-C9, and 0x00FE of 30_encoding.md R126. -/
theorem test_decode_illegal :
    [0x5011#16, 0x9011#16, 0x8008#16, 0x800F#16, 0xE000#16, 0xE09F#16, 0xF000#16, 0xF075#16, 0xF0FF#16].all
      (fun w => decodeWord w == .error (.unimplemented w)) = true ∧ decodeWord 0x00FE = .ok (.sys 0x0FE) := by decide

/-- The table word's bits are laid out big-endian. -/
theorem test_decodeTableWord : decodeTableWord 16 0xD012 = some (.drw 0 1 2) ∧ decodeTableWord 16 0xF0FF = none := by
  decide

/-! ## The instruction cycle -/

/-- D-C1, D-C2, D-C3. -/
theorem test_fetch_faults :
    step { State.reset with pc := 0xE9F, dt := 9 } = .next { State.reset with
      pc := 0xE9F, dt := 9, status := .faulted (.addressOutOfRange 0xEA0 .read) } ∧
    step { State.reset with pc := 0xEA0 } = .next { State.reset with
      pc := 0xEA0, status := .faulted (.addressOutOfRange 0xEA0 .read) } ∧
    step { State.reset with pc := 0x10FE } = .next { State.reset with
      pc := 0x10FE, status := .faulted (.addressOutOfRange 0x10FE .read) } := by
  exact ⟨rfl, rfl, rfl⟩

/-- D-C4: an odd PC. -/
theorem test_odd_pc : (after 0x6007 { State.reset with pc := 0x201 }).map (view 0) = some (0x203, 7, 0) := by decide

/-- D-C7. -/
theorem test_illegal_word : (after 0x800F State.reset).map (·.status) =
    some (.faulted (.unimplementedOpcode 0x800F 0x200)) := by decide

/-- D-C10. -/
theorem test_decay : (after 0x6000 { State.reset with dt := 25, st := 5 }).map (fun t => (t.dt, t.st)) =
    some (15, 0) := by decide

/-- D-C11. -/
theorem test_faulted_core : hostStep { State.reset with status := .faulted (.invalidKeyIndex 16) } =
    ({ State.reset with status := .faulted (.invalidKeyIndex 16) }, .fault (.invalidKeyIndex 16)) := rfl

/-- D-F3: from reset with nothing placed the core runs 0x0000, then faults on the default font's first word. -/
theorem test_reset_runs_0000 : step State.reset = .next { State.reset with pc := 0 } ∧
    step { State.reset with pc := 0 } = .next { State.reset with
      pc := 0, status := .faulted (.unimplementedOpcode 0xF090 0x000) } := by exact ⟨rfl, rfl⟩

/-- 70_reset_and_hazards.md R453, S9. -/
theorem test_load_then_step : ((hostStep (loadProgram [0x60, 0x05] State.reset).1).2 = .ok) ∧
    view 0 (hostStep (loadProgram [0x60, 0x05] State.reset).1).1 = (0x202, 5, 0) := by exact ⟨rfl, by decide⟩

/-- 60_exceptions.md R409: a restart clears `status`. 10_state.md R50: it does not set RAND back. -/
theorem test_restart : hostApply (.construct defaultFont)
    { start 9 9 9 0x300 with status := .faulted (.invalidKeyIndex 16), draws := 5 } =
      ({ State.reset with draws := 5 }, .ok) := rfl

/-! ## Control transfer -/

/-- D-F1, D-F2. -/
theorem test_jumps : (after 0x1234 State.reset).map (·.pc) = some 0x234 ∧
    (after 0x0300 State.reset).map (fun t => (t.pc, t.sp)) = some (0x300, ⟨0⟩) := by decide

/-- D-F4. -/
theorem test_call : (after 0x2300 State.reset).map (fun t => (t.stack[0], t.sp.bytes, t.pc)) =
    some (0x200, 2, 0x300) := by decide

/-- D-F5. -/
theorem test_call_full : (after 0x2300 (nested 24 0x204)).map (fun t => (t.sp.bytes, t.status)) =
    some (48, .faulted (.stackOverflow 0x200)) := by decide

/-- D-F6. -/
theorem test_ret : (after 0x00EE (nested 1 0x204)).map (fun t => (t.sp.bytes, t.pc, t.stack[0])) =
    some (0, 0x206, 0x204) := by decide

/-- D-F7. -/
theorem test_ret_empty : (after 0x00EE State.reset).map (·.status) =
    some (.faulted (.stackUnderflow 0x200)) := by decide

/-- D-F8 to D-F11. -/
theorem test_skip_byte : [0x3110, 0x3111, 0x4111, 0x4110].map
    (fun w => (after w (start 0 0x10 0 0)).map (·.pc)) = [some 0x204, some 0x202, some 0x204, some 0x202] := by decide

/-- D-F12 to D-F15, on V0 = 7 and V1 = 8. -/
theorem test_skip_reg : [0x5010, 0x5550, 0x9010, 0x9550].map
    (fun w => (after w (start 7 8 0 0)).map (·.pc)) = [some 0x202, some 0x204, some 0x204, some 0x202] := by decide

/-- D-F17, D-F18. -/
theorem test_jpV0 : (after 0xBFFF (start 0xFF 0 0 0)).map (·.pc) = some 0x10FE ∧
    (after 0xB500 (writeReg (start 1 0 0 0) 5 9)).map (·.pc) = some 0x501 := by decide

/-! ## Loads, arithmetic and logic -/

/-- D-A1. -/
theorem test_ldByte : (after 0x6AAB State.reset).map (view 0xA) = some (0x202, 0xAB, 0) := by decide

/-- D-A2, D-A3. -/
theorem test_addByte : (after 0x700A (start 250 0 0x55 0)).map (view 0) = some (0x202, 4, 0x55) ∧
    (after 0x7FFF (start 0 0 1 0)).map (view 0xF) = some (0x202, 0, 0) := by decide

/-- D-A4 to D-A8. -/
theorem test_copy_and_logic : (after 0x8010 (start 3 7 0 0)).map (view 0) = some (0x202, 7, 0) ∧
    (after 0x8011 (start 0xF0 0x0F 9 0)).map (view 0) = some (0x202, 0xFF, 9) ∧
    (after 0x8012 (start 0xF0 0x3C 9 0)).map (view 0) = some (0x202, 0x30, 9) ∧
    (after 0x8013 (start 0xF0 0x3C 9 0)).map (view 0) = some (0x202, 0xCC, 9) ∧
    (after 0x8113 (start 0 0x5A 9 0)).map (view 1) = some (0x202, 0, 9) := by decide

/-- S3, D-A9 to D-A13. -/
theorem test_addReg : (after 0x8014 (start 250 10 7 0)).map (view 0) = some (0x202, 4, 1) ∧
    (after 0x8014 (start 255 0 7 0)).map (view 0) = some (0x202, 255, 0) ∧
    (after 0x8004 (start 128 0 7 0)).map (view 0) = some (0x202, 0, 1) ∧
    (after 0x8F14 (start 0 100 200 0)).map (view 0xF) = some (0x202, 44, 44) ∧
    (after 0x80F4 (start 1 0 255 0)).map (view 0) = some (0x202, 0, 1) := by decide

/-- S4, D-A14 to D-A16. -/
theorem test_subReg : (after 0x8015 (start 5 10 7 0)).map (view 0) = some (0x202, 251, 1) ∧
    (after 0x8015 (start 10 5 7 0)).map (view 0) = some (0x202, 5, 0) ∧
    (after 0x8015 (start 7 7 7 0)).map (view 0) = some (0x202, 0, 0) ∧
    (after 0x8F15 (start 0 5 3 0)).map (view 0xF) = some (0x202, 254, 254) := by decide

/-- D-A17 to D-A19. -/
theorem test_shr : (after 0x8006 (start 5 0 7 0)).map (view 0) = some (0x202, 2, 1) ∧
    (after 0x8016 (start 4 0x99 7 0)).map (view 0) = some (0x202, 2, 0) ∧
    (after 0x8F06 (start 0 0 0xFF 0)).map (view 0xF) = some (0x202, 0, 0) := by decide

/-- D-A20 to D-A22. -/
theorem test_subn : (after 0x8017 (start 10 5 7 0)).map (view 0) = some (0x202, 251, 1) ∧
    (after 0x8017 (start 5 10 7 0)).map (view 0) = some (0x202, 5, 0) ∧
    (after 0x8F17 (start 0 1 2 0)).map (view 0xF) = some (0x202, 255, 255) := by decide

/-- D-A23 to D-A26. -/
theorem test_shl : (after 0x800E (start 0x81 0 7 0)).map (view 0) = some (0x202, 2, 1) ∧
    (after 0x800E (start 0x40 0 7 0)).map (view 0) = some (0x202, 0x80, 0) ∧
    (after 0x8FFE (start 0 0 0x81 0)).map (view 0xF) = some (0x202, 2, 2) ∧
    (after 0x8F0E (start 0 0 1 0)).map (view 0xF) = some (0x202, 0, 0) := by decide

/-- D-A28, and the draw is counted. -/
theorem test_rnd : (after 0xC000 (start 5 0 0 0)).map (fun t => (t.pc, t.draws)) = some (0x202, 1) ∧
    ∀ b : Byte, b &&& 0x00 = 0 := by decide

/-! ## The index register and memory -/

/-- D-M1, D-M2, D-M3. -/
theorem test_index : (after 0xA123 State.reset).map (·.i) = some 0x123 ∧
    (after 0xF01E (start 0xFF 0 9 0x300)).map (fun t => (t.i, readReg t VF)) = some (0x3FF, 9) ∧
    (after 0xF01E (start 1 0 9 0xFFF)).map (·.i) = some 0x1000 := by decide

/-- D-M4, D-M5. -/
theorem test_index_edge : (after 0xF01E (start 0x0F 0 0 0xFFF0)).map (·.i) = some 0xFFFF ∧
    (after 0xF01E (start 1 0 0 0xFFFF)).map (fun t => (t.i, t.status)) =
      some (0xFFFF, .faulted (.indexOverflow 0x200 0x10000)) := by decide

/-- D-M6, D-M8, D-M10. -/
theorem test_ldB : (after 0xF033 (start 123 0 0 0x300)).map (fun t => readBytes t 0x300 3) = some (.ok [1, 2, 3]) ∧
    (after 0xF033 (start 255 0 0 0x300)).map (fun t => readBytes t 0x300 3) = some (.ok [2, 5, 5]) ∧
    (after 0xF033 (start 123 0 0 0x1FF)).map (·.status) = some (.faulted (.addressOutOfRange 0x1FF .write)) := by decide

/-- D-M11. -/
theorem test_ldB_partial : (after 0xF033 (start 123 0 0 0xE9E)).map
    (fun t => (t.pc, t.status, t.mem.peek 0xE9E, t.mem.peek 0xE9F)) =
      some (0x200, .faulted (.addressOutOfRange 0xEA0 .write), 1, 2) := by decide

/-- D-M12, D-M13, D-M15. -/
theorem test_ldMem : (after 0xF155 (start 1 2 0 0x300)).map (fun t => (t.i, t.mem.cells)) =
      some (0x300, [(0x200, 0xF1), (0x201, 0x55), (0x300, 1), (0x301, 2)]) ∧
    (after 0xF055 (start 0x11 0x22 0 0x300)).map (·.mem.cells) =
      some [(0x200, 0xF0), (0x201, 0x55), (0x300, 0x11)] ∧
    (after 0xF055 (start 1 2 0 0x040)).map (·.status) = some (.faulted (.addressOutOfRange 0x040 .write)) := by decide

/-- D-M16, D-M18, D-M19. -/
theorem test_ldRegs : (after 0xF265 (holding [1, 2, 3] (start 0 0 0 0x300))).map
      (fun t => (readReg t 0, readReg t 1, readReg t 2, t.i)) = some (1, 2, 3, 0x300) ∧
    (after 0xF465 (start 0 0 0 0)).map (fun t => [0, 1, 2, 3, 4].map (readReg t)) =
      some [0xF0, 0x90, 0x90, 0x90, 0xF0] ∧
    (after 0xF165 { (storeBytes 0xE9F [7] (start 0 5 0 0xE9F)).1 with dt := 3 }).map
      (fun t => (readReg t 0, readReg t 1, t.status, t.dt)) =
        some (7, 5, .faulted (.addressOutOfRange 0xEA0 .read), 3) := by decide

/-! ## The display -/

/-- The pixels asked for, and whether no other of the top-left 8 by 2 corner is set. -/
def lit (t : State) : List (Nat × Nat) :=
  (List.range 2).flatMap fun y => ((List.range 8).filter fun x => pixel t.fb x y).map fun x => (x, y)

/-- D-D1. -/
theorem test_cls : (after 0x00E0 { State.reset with fb := Vector.replicate 2048 true }).map
    (fun t => (pixel t.fb 63 31, lit t, t.dirty, t.pc)) = some (false, [], true, 0x202) := by decide +kernel

/-- D-D2 and D-D3: the second draw clears what the first set. -/
theorem test_drw_twice :
    (after 0xD011 (holding [0xC0] (start 0 0 9 0x300))).map (fun t => (lit t, readReg t VF, t.dirty)) =
      some ([(0, 0), (1, 0)], 0, true) ∧
    ((after 0xD011 (holding [0xC0] (start 0 0 9 0x300))).bind fun t => after 0xD011 { t with pc := 0x200 }).map
      (fun t => (lit t, readReg t VF)) = some ([], 1) := by decide

/-- D-D6 and D-D8: clipped at the right edge and at the bottom. -/
theorem test_drw_clips :
    (after 0xD011 (holding [0xFF] (start 60 0 0 0x300))).map
      (fun t => (lit t, pixel t.fb 59 0, pixel t.fb 60 0, pixel t.fb 63 0, readReg t VF)) =
        some ([], false, true, true, 0) ∧
    (after 0xD012 (holding [0xFF, 0xFF] (start 0 31 0 0x300))).map
      (fun t => (lit t, pixel t.fb 0 31, pixel t.fb 7 31, pixel t.fb 8 31)) = some ([], true, true, false) := by decide +kernel

/-- D-D9, D-D10. -/
theorem test_drw_edges :
    (after 0xD010 (start 0 0 1 0xFFFF)).map (fun t => (lit t, readReg t VF, t.dirty)) = some ([], 0, true) ∧
    (after 0xD012 (start 0 0 1 0xE9F)).map (fun t => (t.status, readReg t VF, t.dirty)) =
      some (.faulted (.addressOutOfRange 0xEA0 .read), 1, false) := by decide

/-- D-D11: X = F reads the old VF. -/
theorem test_drw_x_is_VF : (after 0xDF11 (holding [0x80] (start 0 0 2 0x300))).map (fun t => (lit t, readReg t VF)) =
    some ([(2, 0)], 0) := by decide

/-- D-D12, D-D14. -/
theorem test_ldF : (after 0xF029 (start 0x0A 0 0 0)).map (·.i) = some 0x032 ∧
    (after 0xF029 (start 0xFF 0 0 0)).map (·.i) = some 0x4FB := by decide

/-! ## Keys and timers -/

/-- D-K1, D-K2, D-K3. -/
theorem test_skp : (after 0xE09E (pressing [5] (start 5 0 0 0))).map (·.pc) = some 0x204 ∧
    (after 0xE09E (start 5 0 0 0)).map (·.pc) = some 0x202 ∧
    (after 0xE09E (start 16 0 0 0)).map (·.status) = some (.faulted (.invalidKeyIndex 16)) := by decide

/-- D-K4, D-K5, D-K6. -/
theorem test_sknp : (after 0xE0A1 (start 5 0 0 0)).map (·.pc) = some 0x204 ∧
    (after 0xE0A1 (pressing [5] (start 5 0 0 0))).map (·.pc) = some 0x202 ∧
    (after 0xE0A1 (start 0xFF 0 0 0)).map (·.status) = some (.faulted (.invalidKeyIndex 255)) := by decide

/-- D-K7, D-K8, D-K9. -/
theorem test_ldKey : (after 0xF20A { State.reset with dt := 30 }).map (fun t => (t.pc, readReg t 2, t.dt)) =
      some (0x200, 0, 20) ∧
    (after 0xF20A (pressing [3, 9] State.reset)).map (fun t => (t.pc, readReg t 2, t.keys[3], t.keys[9])) =
      some (0x202, 3, true, true) ∧
    (after 0xFF0A (pressing [0] (start 0 0 5 0))).map (view 0xF) = some (0x202, 0, 0) := by decide

/-- D-K10, and the adapter's map of 60_exceptions.md R418. -/
theorem test_host_keys : setKey 16 State.reset = (State.reset, .fault (.invalidKeyIndex 16)) ∧
    charToKeyIndex '4' = some 0xC ∧ charToKeyIndex 'x' = some 0x0 ∧ charToKeyIndex 'v' = some 0xF ∧
    charToKeyIndex 'p' = none := by exact ⟨rfl, rfl, rfl, rfl, rfl⟩

/-- D-T1 to D-T5. -/
theorem test_timers : (after 0xF007 { State.reset with dt := 25 }).map (fun t => (readReg t 0, t.dt)) = some (25, 15) ∧
    (after 0xF015 (start 25 0 0 0)).map (·.dt) = some 15 ∧ (after 0xF015 (start 10 0 0 0)).map (·.dt) = some 0 ∧
    (after 0xF018 (start 9 0 0 0)).map (·.st) = some 0 ∧ (after 0xF018 (start 255 0 0 0)).map (·.st) = some 245 := by
  decide

/-- D-T6: a jump to itself. -/
theorem test_self_jump : (after 0x1200 { State.reset with dt := 3 }).map (fun t => (t.dt, t.st, t.pc)) =
    some (0, 0, 0x200) := by decide

/-- 60_exceptions.md R400: the codes. -/
theorem test_fault_codes : [Fault.addressOutOfRange 0 .read, .unimplementedOpcode 0 0, .invalidKeyIndex 16,
    .stackOverflow 0, .stackUnderflow 0, .indexOverflow 0 0].map Fault.code = [1, 2, 3, 4, 5, 6] := by decide

/-! ## Witnesses: for each statement with hypotheses a state and operands that meet them, at the edges -/

/-- A running core in the middle of a call, a program byte and a blank screen. -/
def busy : State := { (holding [0x12] (nested 1 0x204)) with pc := 0x300, dt := 25 }

/-- The state a next outcome carries. -/
def nextOf (r : Result) : Option State :=
  match r with
  | .next t => some t
  | _ => none

theorem busy_wf : busy.mem.wf := by decide

theorem busy_inv : CoreInv busy :=
  ⟨busy_wf, by decide, fun k h => by
    have h0 : k = 0 := by change k < 1 at h; omega
    subst h0
    exact (by decide : busy.stack[0].toNat ≤ 0xE9E)⟩

/-- DecodeOfEncodeIsTheInstruction, EveryRowOfTheTableDecodes: the neighbours of the two excluded targets. -/
theorem witness_well_formed : (Instr.sys 0x0DF).wellFormed = true ∧ (Instr.drw 0xF 0xF 0xF).wellFormed = true ∧
    (0x0E1 : Addr) ≠ 0x0E0 ∧ (0x0E1 : Addr) ≠ 0x0EE := by decide

/-- EncodeOfDecodeIsTheWord. -/
theorem witness_decodes : decodeWord 0x8F14 = .ok (.addReg 0xF 1) := by decide

/-- StepRunsTheDecodedInstruction, its first two clauses: each read of a fetch rejected. -/
theorem witness_fetch_rejected : ({ busy with pc := 0xEA0 } : State).status = .running ∧
    readByte { busy with pc := 0xEA0 } 0xEA0 = .error (.addressOutOfRange 0xEA0 .read) ∧
    (readByte { busy with pc := 0xE9F } 0xE9F).isOk = true ∧
    readByte { busy with pc := 0xE9F } 0xEA0 = .error (.addressOutOfRange 0xEA0 .read) := by decide

/-- StepRunsTheDecodedInstruction, its other clauses: a rejected word, an instruction that goes on, one that faults. -/
theorem witness_cycle : busy.status = .running ∧ (readByte busy 0x300).isOk = true ∧ (readByte busy 0x301).isOk = true ∧
    decodeWord (0x50#8 ++ 0x18#8) = .error (.unimplemented 0x5018) ∧
    decodeWord (0x12#8 ++ 0x00#8) = .ok (.jp 0x200) ∧ (nextOf (exec (.jp 0x200) busy)).map (·.status) = some .running ∧
    (nextOf (exec .ret State.reset)).map (·.status) = some (.faulted (.stackUnderflow 0x200)) := by decide

/-- FetchBeyondTheProgramZoneFaults, at both ends of its range. -/
theorem witness_fetch_beyond : ({ busy with pc := 0xE9F } : State).status = .running ∧
    0xE9F ≤ ({ busy with pc := 0xE9F } : State).pc.toNat ∧ 0xE9F ≤ ({ busy with pc := 0xFFFF } : State).pc.toNat := by
  decide

/-- FaultedCoreOnlyReturnsItsFault: a faulted core; a running core whose step goes on; one whose step faults. -/
theorem witness_faulted : ({ busy with status := .faulted (.invalidKeyIndex 16) } : State).status =
      .faulted (.invalidKeyIndex 16) ∧
    (nextOf (step busy)).map (·.status) = some .running ∧
    (nextOf (step { busy with pc := 0xEA0 })).map (·.status) = some (.faulted (.addressOutOfRange 0xEA0 .read)) := by
  decide

/-- FaultsArePrecise: a step that faults in an instruction that changes nothing first, and one in a partial store. -/
theorem witness_faults : (after 0xF01E (start 1 0 0 0xFFFF)).map (·.status) =
      some (.faulted (.indexOverflow 0x200 0x10000)) ∧
    (nextInstr ((start 1 0 0 0xFFFF).withFetchWord 16 0xF01E)).any partlyDoneOnFault = false ∧
    (after 0xF033 (start 1 0 0 0xE9F)).map (·.status) = some (.faulted (.addressOutOfRange 0xEA0 .write)) := by decide

/-- FaultKindsFollowTheTable: one execute fault of each kind. -/
theorem witness_fault_kinds : (nextOf (exec .ret State.reset)).map (·.status) =
      some (.faulted (.stackUnderflow 0x200)) ∧
    (nextOf (exec (.call 0) (nested 24 0))).map (·.status) = some (.faulted (.stackOverflow 0x200)) ∧
    (nextOf (exec (.addI 0) (start 1 0 0 0xFFFF))).map (·.status) = some (.faulted (.indexOverflow 0x200 0x10000)) ∧
    (nextOf (exec (.skp 0) (start 16 0 0 0))).map (·.status) = some (.faulted (.invalidKeyIndex 16)) ∧
    (nextOf (exec (.drw 0 1 2) (start 0 0 0 0xE9F))).map (·.status) =
      some (.faulted (.addressOutOfRange 0xEA0 .read)) ∧
    (nextOf (exec (.ldMem 0) (start 0 0 0 0x1FF))).map (·.status) =
      some (.faulted (.addressOutOfRange 0x1FF .write)) := by decide

/-- EveryInstructionAnswersANextState, EveryStepKeepsTheInvariant, EveryHostOperationKeepsTheInvariant: a running core with
the invariant, and its step. -/
theorem witness_invariant : CoreInv busy ∧ busy.status = .running ∧ ∃ t, step busy = .next t :=
  ⟨busy_inv, rfl, _, rfl⟩

/-- FontAndReservedZonesNeverChange: memory in canonical form, the last byte of each zone, a step. -/
theorem witness_zones : busy.mem.wf ∧ 79 < 80 ∧ 0x50 ≤ 0x1FF ∧ 0x1FF < 0x200 ∧ (nextOf (step busy)).isSome = true := by
  decide

/-- CallPushesItsAddress and ReturnPopsTheAddress: an empty stack, the last free entry, a full stack. -/
theorem witness_stack : (nested 0 0).sp.bytes < 48 ∧ (nested 23 0).sp.bytes < 48 ∧ (nested 24 0).sp.bytes = 48 ∧
    0 < (nested 1 0).sp.bytes ∧ 0 < (nested 24 0).sp.bytes ∧ (nested 0 0).sp.bytes = 0 := by decide

/-- ReturnComesBackAfterTheCall: the state right after the call is such a state. -/
theorem witness_call_return : (nested 23 0).sp.bytes < 48 ∧
    ∃ t, exec (.call 0x300) (nested 23 0) = .next t ∧ t.sp = t.sp ∧ t.stack = t.stack := ⟨by decide, _, rfl, rfl, rfl⟩

/-- AddSetsTheCarry, SubtractSetsTheBorrow, ShiftsMoveOneBit: X below F, and X = F. -/
theorem witness_flag_register : (0xE : RegIx) ≠ VF ∧ (0xF : RegIx) = VF := by decide

/-- OnlyTheListedRegistersAreWritten, PcMovesAsTheRulesSay: an instruction that goes on and one that faults. -/
theorem witness_moves : busy.status = .running ∧ (nextOf (exec (.ldByte 3 7) busy)).map (·.status) = some .running ∧
    (nextOf (exec (.skp 0) (start 16 0 0 0))).map (·.status) = some (.faulted (.invalidKeyIndex 16)) := by decide

/-- IndexAddFaultsAbove16Bits: the largest sum that fits, and the smallest that does not. -/
theorem witness_index_sum :
    (start 0x0F 0 0 0xFFF0).i.toNat + (readReg (start 0x0F 0 0 0xFFF0) 0).toNat = 0xFFFF ∧
    (start 1 0 0 0xFFFF).i.toNat + (readReg (start 1 0 0 0xFFFF) 0).toNat = 0x10000 := by decide

/-- StoresWriteTheirBytes: three bytes that end at the zone's last address, sixteen that start at its first. -/
theorem witness_stores : storesToMemory (.ldB 0) = true ∧ (start 123 0 0 0xE9D).mem.wf ∧
    0x200 ≤ indexAddr (start 123 0 0 0xE9D) ∧
    indexAddr (start 123 0 0 0xE9D) + (storedBytes (.ldB 0) (start 123 0 0 0xE9D)).length ≤ 0xEA0 ∧
    storesToMemory (.ldMem 0xF) = true ∧ 0x200 ≤ indexAddr (start 1 2 3 0x200) ∧
    indexAddr (start 1 2 3 0x200) + (storedBytes (.ldMem 0xF) (start 1 2 3 0x200)).length ≤ 0xEA0 := by decide

/-- StoreFaultKeepsTheBytesBefore: stopped at the third byte, and at the first. -/
theorem witness_store_fault : (start 123 0 0 0xE9E).mem.wf ∧
    2 < (storedBytes (.ldB 0) (start 123 0 0 0xE9E)).length ∧
    (∀ k, k < 2 → 0x200 ≤ indexAddr (start 123 0 0 0xE9E) + k ∧ indexAddr (start 123 0 0 0xE9E) + k ≤ 0xE9F) ∧
    ¬(0x200 ≤ indexAddr (start 123 0 0 0xE9E) + 2 ∧ indexAddr (start 123 0 0 0xE9E) + 2 ≤ 0xE9F) ∧
    0 < (storedBytes (.ldMem 0) (start 1 0 0 0x1FF)).length ∧
    ¬(0x200 ≤ indexAddr (start 1 0 0 0x1FF) + 0 ∧ indexAddr (start 1 0 0 0x1FF) + 0 ≤ 0xE9F) := by decide

/-- LoadFillsTheRegisters and LoadFaultKeepsTheRegistersBefore: the last readable byte, one byte more, and no byte at all. -/
theorem witness_loads : indexAddr (start 0 0 0 0xE9F) + (0 : RegIx).val ≤ 0xE9F ∧
    0xE9F < indexAddr (start 0 0 0 0xE9F) + (1 : RegIx).val ∧ 0xE9F < indexAddr (start 0 0 0 0xFFFF) + (0 : RegIx).val ∧
    (0 : RegIx) ≤ 0 := by decide

/-- AccessRightsFollowTheZones: the addresses where its clauses meet. -/
theorem witness_access : (readByte busy 0xE9F).isOk = true ∧ (readByte busy 0xEA0).isOk = false ∧
    (nextOf (match writeByte busy 0x200 1 with
      | .ok t => .next t
      | .error f => .fault f)).isSome = true ∧
    (nextOf (match writeByte busy 0xE9F 1 with
      | .ok t => .next t
      | .error f => .fault f)).isSome = true ∧
    (nextOf (match writeByte busy 0x1FF 1 with
      | .ok t => .next t
      | .error f => .fault f)) = none := by decide

/-- WrittenByteReadsBack: a write at each end of the zone. -/
theorem witness_write : busy.mem.wf ∧ (∃ t, writeByte busy 0x200 7 = .ok t) ∧ ∃ t, writeByte busy 0xE9F 7 = .ok t :=
  ⟨busy_wf, ⟨_, rfl⟩, ⟨_, rfl⟩⟩

/-- StoredInstructionIsFetched: at the last place a word fits. -/
theorem witness_stored_instruction : (Instr.drw 1 2 3).wellFormed = true ∧ ({ busy with pc := 0xE9E } : State).mem.wf ∧
    ∃ t u, writeByte { busy with pc := 0xE9E } 0xE9E (highByte (encode (.drw 1 2 3))) = .ok t ∧
      writeByte t (0xE9E + 1) (lowByte (encode (.drw 1 2 3))) = .ok u :=
  ⟨by decide, by decide, _, _, rfl, rfl⟩

/-- EqualMemoriesAreEqualData: one memory reached by two orders of writing. -/
theorem witness_memories : busy.mem.wf ∧ (busy.mem.poke 0x301 1).wf ∧
    (((busy.mem.poke 0x302 5).poke 0x301 1).poke 0x302 0) = busy.mem.poke 0x301 1 := by decide

/-- DrawXorsTheSprite: no row, a row at the last readable byte, a set pixel hit, no pixel hit. -/
theorem witness_draw : ((0 : RowCount).val = 0 ∨ indexAddr (start 0 0 0 0xFFFF) + (0 : RowCount).val ≤ 0xEA0) ∧
    ((1 : RowCount).val = 0 ∨ indexAddr (start 0 0 0 0xE9F) + (1 : RowCount).val ≤ 0xEA0) ∧
    pixel (Vector.replicate 2048 true) 63 31 = true ∧ spriteBit [0xC0] 62 31 63 31 = true ∧
    spriteBit [0xC0] 62 31 61 31 = false := by decide +kernel

/-- DrawFaultChangesNothing: the first row past the end, and a later one. -/
theorem witness_draw_fault : 0 < (1 : RowCount).val ∧ 0xEA0 < indexAddr (start 0 0 0 0xEA0) + (1 : RowCount).val ∧
    0xEA0 < indexAddr (start 0 0 0 0xE9F) + (2 : RowCount).val := by decide

/-- DrawingTwiceRestoresTheScreen. -/
theorem witness_draw_twice : (0 : RegIx) ≠ VF ∧ (1 : RegIx) ≠ VF ∧
    indexAddr (start 60 31 0 0x300) + (2 : RowCount).val ≤ 0xEA0 ∧
    ∃ t u, exec (.drw 0 1 2) (start 60 31 0 0x300) = .next t ∧ exec (.drw 0 1 2) t = .next u :=
  ⟨by decide, by decide, by decide, _, _, rfl, rfl⟩

/-- SkipsOnAKey: the last key number and the first that is none. -/
theorem witness_key_number : (readReg (start 15 0 0 0) 0).toNat < 16 ∧ 16 ≤ (readReg (start 16 0 0 0) 0).toNat := by
  decide

/-- WaitForKeyTakesTheLowest: no key, the highest key alone, the lowest with another. -/
theorem witness_keys : (∀ k : Fin 16, State.reset.keys[k.val] = false) ∧
    ((pressing [15] State.reset).keys[15] = true ∧
      ∀ j : Fin 16, j < 15 → (pressing [15] State.reset).keys[j.val] = false) ∧
    ((pressing [0, 9] State.reset).keys[0] = true ∧
      ∀ j : Fin 16, j < 0 → (pressing [0, 9] State.reset).keys[j.val] = false) := by decide

/-- KeyPollOnlyDecaysTheTimers. -/
theorem witness_awaiting : awaitingKey (State.reset.withFetchWord 16 0xF20A) = true := by decide

/-- TimersDecayAtTheEndOfEveryStep: a step that writes DT, one that does not, one that faults. -/
theorem witness_decay : (after 0xF015 (start 25 0 0 0)).map (·.status) = some .running ∧
    (nextOf (step busy)).map (·.status) = some .running ∧
    (nextOf (step { busy with pc := 0xEA0 })).map (·.status) = some (.faulted (.addressOutOfRange 0xEA0 .read)) := by
  decide

/-- TimerAfterManySteps: one step that writes neither timer. -/
theorem witness_run : busy.status = .running ∧ (∃ t, RunsWithout writesDT 1 busy t) ∧ ∃ t, RunsWithout writesST 1 busy t :=
  ⟨rfl, ⟨_, by decide, _, rfl, rfl, rfl⟩, ⟨_, by decide, _, rfl, rfl, rfl⟩⟩

/-- EachStateChangesOnlyByItsInstructions: each kind of state does change. -/
theorem witness_changes : (nextOf (exec (.ldI 0x123) busy)).map (·.i) = some 0x123 ∧ busy.i = 0 ∧
    (nextOf (exec (.call 0x300) busy)).map (·.sp.bytes) = some 4 ∧ busy.sp.bytes = 2 ∧
    (nextOf (exec .cls busy)).map (·.dirty) = some true ∧ busy.dirty = false ∧
    (nextOf (exec (.ldDT 0) busy)).map (·.dt) = some 0 ∧ busy.dt = 25 ∧
    (nextOf (exec (.ldST 0) (start 9 0 0 0))).map (·.st) = some 9 ∧ (start 9 0 0 0).st = 0 ∧
    (nextOf (exec (.ldMem 0) (start 9 0 0 0x300))).map (·.mem.cells) = some [(0x300, 9)] ∧
    (start 9 0 0 0x300).mem.cells = [] := by decide

/-- SoundTimerIsReadByNoInstruction, StepsNeverClearDirty: a step from a state with `dirty` set. -/
theorem witness_dirty : ({ busy with dirty := true } : State).dirty = true ∧
    ∃ t, step { busy with dirty := true } = .next t := ⟨rfl, _, rfl⟩

/-- ProgramLoadStoresTheBytes: the longest program, and one byte more. -/
theorem witness_load : State.reset.mem.wf ∧ (List.replicate 3232 (0xFF : Byte)).length ≤ 3232 ∧
    3232 < (List.replicate 3233 (0xFF : Byte)).length :=
  ⟨by decide, Nat.le_of_eq (List.length_replicate ..), Nat.lt_of_lt_of_eq (by decide) (List.length_replicate ..).symm⟩

/-- HostWritesOnlyTheLatchAndDirty: the first index out of range. -/
theorem witness_index : 16 ≤ 16 ∧ (setKey 15 State.reset).2 = .ok := ⟨Nat.le_refl 16, rfl⟩

/-- RefuseModeOnlyDropsVfDestinations: a word with X = F, one without, a faulted core. -/
theorem witness_refuse : (State.reset.withFetchWord 16 0x8F14).status = .running ∧
    nextInstr (State.reset.withFetchWord 16 0x8F14) = some (.addReg 0xF 1) ∧ vfIsDestination (.addReg 0xF 1) = true ∧
    (nextInstr (State.reset.withFetchWord 16 0x8014)).any vfIsDestination = false ∧
    ({ busy with status := .faulted (.invalidKeyIndex 16) } : State).status ≠ .running := by decide

end Sys2Proof.Tests
end

section
/-! The switch VF_DEST_MODE (00_scope.md R10): what `stepVfDest` answers in each mode. -/

namespace Sys2Proof.Machine

@[simp] theorem stepVfDest_sequential (s : State) : stepVfDest .sequential s = step s := rfl

theorem stepVfDest_refuse_of_vfDestination {s : State} {i : Instr} (hrun : s.status = .running)
    (hnext : nextInstr s = some i) (hvf : vfIsDestination i = true) :
    stepVfDest .refuse s = .refused .vfDestination := by
  simp [stepVfDest, hrun, hnext, hvf]

theorem stepVfDest_refuse_of_not_running {s : State} (hrun : s.status ≠ .running) :
    stepVfDest .refuse s = step s := by
  simp [stepVfDest, hrun]

theorem stepVfDest_refuse_of_not_vfDestination {s : State}
    (hnext : (nextInstr s).any vfIsDestination = false) : stepVfDest .refuse s = step s := by
  simp [stepVfDest, hnext]

/-- Settles O57: the guard of `stepVfDest .refuse` is a conjunction, and each way it can fail leaves the step as it is. -/
theorem refuseModeOnlyDropsVfDestinations : Obligations.RefuseModeOnlyDropsVfDestinations := by
  unfold Obligations.RefuseModeOnlyDropsVfDestinations
  intro s
  refine ⟨stepVfDest_sequential s, fun _ => stepVfDest_refuse_of_vfDestination, ?_⟩
  rintro (hrun | hnext)
  · exact stepVfDest_refuse_of_not_running hrun
  · exact stepVfDest_refuse_of_not_vfDestination hnext

end Sys2Proof.Machine
end

section
/-! What an instruction can do: the shapes of the next state, said once. The frame statements, the law of PC and the
invariant are read off these shapes. -/

namespace Sys2Proof.Machine

/-- The shapes of the state after an instruction, one constructor for each part of the state an instruction changes beside
PC. A fault may leave loaded registers or stored bytes behind (60_exceptions.md R408). -/
inductive Effect (i : Instr) (s : State) : State → Prop where
  | fault (f : Fault) : Effect i s { s with status := .faulted f }
  | loadFault (v : Vector Byte 16) (f : Fault) (hregs : SameRegsBut (writtenRegs i) s { s with v := v }) :
      Effect i s { s with v := v, status := .faulted f }
  | storeFault (m : Memory) (f : Fault) (hi : storesToMemory i = true) (hfont : m.font = s.mem.font)
      (hwf : s.mem.wf → m.wf) : Effect i s { s with mem := m, status := .faulted f }
  | jump (w : Word) (hpc : pcAllowed i s (setPc s w)) : Effect i s (setPc s w)
  | pop (hi : i = .ret) (h : 0 < s.sp.entries.val) :
      Effect i s { s with
        pc := s.stack[s.sp.entries.val - 1] + 2, sp := ⟨⟨s.sp.entries.val - 1, by omega⟩⟩ }
  | push (nnn : Addr) (hi : i = .call nnn) (h : s.sp.entries.val < 24) :
      Effect i s { s with
        pc := zextAddr nnn, stack := s.stack.set s.sp.entries.val s.pc, sp := ⟨⟨s.sp.entries.val + 1, by omega⟩⟩ }
  | regs (v : Vector Byte 16) (n : Nat) (hregs : SameRegsBut (writtenRegs i) s { s with v := v })
      (hpc : pcAllowed i s (advance { s with v := v, draws := n })) :
      Effect i s (advance { s with v := v, draws := n })
  | index (w : Word) (hi : (∃ nnn, i = .ldI nnn) ∨ (∃ x, i = .addI x) ∨ ∃ x, i = .ldF x) :
      Effect i s (advance { s with i := w })
  | store (m : Memory) (hi : storesToMemory i = true) (hfont : m.font = s.mem.font) (hwf : s.mem.wf → m.wf) :
      Effect i s (advance { s with mem := m })
  | display (v : Vector Byte 16) (fb : Frame) (hi : i = .cls ∨ ∃ x y n, i = .drw x y n)
      (hregs : SameRegsBut (writtenRegs i) s { s with v := v }) :
      Effect i s (advance { s with v := v, fb := fb, dirty := true })
  | delayTimer (x : RegIx) (b : Byte) (hi : i = .ldDT x) : Effect i s (advance { s with dt := b })
  | soundTimer (x : RegIx) (b : Byte) (hi : i = .ldST x) : Effect i s (advance { s with st := b })

/-- PC alone written, two or four on: the skips. -/
theorem Effect.of_skipIf {i : Instr} {s : State} {c : Bool} (hpc : pcAllowed i s (skipIf c s)) :
    Effect i s (skipIf c s) := .jump _ hpc

/-- One register written, then PC: 6XNN, 7XNN, 8XY0 to 8XY3, FX0A, FX07. -/
theorem Effect.of_writeReg {i : Instr} {s : State} {x : RegIx} {b : Byte} (hx : writtenRegs i = [x])
    (hpc : pcAllowed i s (advance (writeReg s x b))) : Effect i s (advance (writeReg s x b)) :=
  .regs _ s.draws (fun _ hr => readReg_writeReg_ne s b (by simpa [hx] using hr)) hpc

/-- VF written as a flag, then a register, then PC: 8XY4 to 8XY7, 8XYE. -/
theorem Effect.of_writeFlag {i : Instr} {s : State} {x : RegIx} {flag b : Byte} (hx : writtenRegs i = [VF, x])
    (hpc : pcAllowed i s (advance (writeReg (writeReg s VF flag) x b))) :
    Effect i s (advance (writeReg (writeReg s VF flag) x b)) := by
  refine .regs _ s.draws (fun r hr => ?_) hpc
  simp only [hx, List.mem_cons, List.mem_nil_iff, or_false, not_or] at hr
  exact (readReg_writeReg_ne _ b hr.2).trans (readReg_writeReg_ne s flag hr.1)

/-- FX0A finds no key exactly when none is set; a key it finds is set (44_input.md R332). -/
theorem firstKey_cases (s : State) :
    (firstKey s = none ∧ ∀ k : Fin 16, s.keys[k.val] = false) ∨
      ∃ k : Fin 16, firstKey s = some k ∧ s.keys[k.val] = true := by
  cases h : firstKey s with
  | none =>
    rw [firstKey, List.find?_eq_none] at h
    exact .inl ⟨rfl, fun k => by simpa using h k (by revert k; decide)⟩
  | some k =>
    rw [firstKey] at h
    exact .inr ⟨k, rfl, by simpa using List.find?_some h⟩

/-- A storing instruction stores and advances, or stops at a rejected address. -/
theorem exec_store_effect {i : Instr} (hi : storesToMemory i = true) (s : State) :
    ∃ t, exec i s = .next t ∧ Effect i s t := by
  obtain ⟨m, hfont, hwf, he | ⟨k, -, -, -, he⟩⟩ := exec_store_cases hi s
  · exact ⟨_, he, .store m hi hfont hwf⟩
  · exact ⟨_, he, .storeFault m _ hi hfont hwf⟩

/-- Every instruction has a next state, and it is of one of the shapes. -/
theorem exec_effect (i : Instr) (s : State) : ∃ t, exec i s = .next t ∧ Effect i s t := by
  cases i with
  | ret =>
    by_cases h : 0 < s.sp.entries.val
    · exact ⟨_, exec_ret_of_pos h, .pop rfl h⟩
    · exact ⟨_, exec_ret_of_zero (by omega), .fault _⟩
  | call nnn =>
    by_cases h : s.sp.entries.val < 24
    · exact ⟨_, exec_call_of_lt nnn h, .push nnn rfl h⟩
    · exact ⟨_, exec_call_of_full nnn (by omega), .fault _⟩
  | sys nnn | jp nnn => exact ⟨_, rfl, .jump _ (toNat_zextAddr nnn)⟩
  | jpV0 nnn =>
    refine ⟨_, rfl, .jump _ ?_⟩
    have hn := nnn.isLt
    have hv := (readReg s 0).isLt
    simp only [pcAllowed, setPc_pc, BitVec.toNat_add, toNat_zextAddr, BitVec.toNat_setWidth]
    omega
  | seByte x nn | sneByte x nn | seReg x y | sneReg x y => exact ⟨_, rfl, .of_skipIf (by simp [pcAllowed])⟩
  | skp x =>
    by_cases h : (readReg s x).toNat < 16
    · exact ⟨_, by rw [exec, execSkp, keyOperand_of_lt h], .of_skipIf ⟨h, rfl⟩⟩
    · exact ⟨_, by rw [exec, execSkp, keyOperand_of_ge (by omega)]; rfl, .fault _⟩
  | sknp x =>
    by_cases h : (readReg s x).toNat < 16
    · refine ⟨_, by rw [exec, execSknp, keyOperand_of_lt h], .of_skipIf ⟨h, ?_⟩⟩
      cases hk : s.keys[(readReg s x).toNat] <;> simp
    · exact ⟨_, by rw [exec, execSknp, keyOperand_of_ge (by omega)]; rfl, .fault _⟩
  | ldKey x =>
    obtain ⟨hk, hnone⟩ | ⟨k, hk, hset⟩ := firstKey_cases s
    · exact ⟨s, by rw [exec, execLdKey, hk], .jump s.pc (.inr ⟨rfl, hnone⟩)⟩
    · exact ⟨_, by rw [exec, execLdKey, hk], .of_writeReg rfl (.inl ⟨rfl, k, hset⟩)⟩
  | ldByte x nn | addByte x nn | ldReg x y | orReg x y | andReg x y | xorReg x y | ldVxDT x =>
    exact ⟨_, rfl, .of_writeReg rfl rfl⟩
  | addReg x y | subReg x y | shr x y | subn x y | shl x y => exact ⟨_, rfl, .of_writeFlag rfl rfl⟩
  | rnd x nn =>
    exact ⟨_, rfl, .regs _ (s.draws + 1) (fun _ hr => readReg_writeReg_ne s _ (by simpa [writtenRegs] using hr)) rfl⟩
  | ldI nnn => exact ⟨_, rfl, .index _ (.inl ⟨nnn, rfl⟩)⟩
  | ldF x => exact ⟨_, rfl, .index _ (.inr (.inr ⟨x, rfl⟩))⟩
  | addI x =>
    by_cases h : s.i.toNat + (readReg s x).toNat ≤ 0xFFFF
    · exact ⟨_, exec_addI_of_le x h, .index _ (.inr (.inl ⟨x, rfl⟩))⟩
    · exact ⟨_, exec_addI_of_gt x (by omega), .fault _⟩
  | ldB x | ldMem x => exact exec_store_effect rfl s
  | ldRegs x =>
    obtain ⟨v, hregs, he | ⟨k, -, -, he⟩⟩ := exec_ldRegs_cases x s
    · exact ⟨_, he, .regs v s.draws hregs rfl⟩
    · exact ⟨_, he, .loadFault v _ hregs⟩
  | cls => exact ⟨_, rfl, .display s.v _ (.inl rfl) fun _ _ => rfl⟩
  | drw x y n =>
    cases hr : readBytes s (indexAddr s) n.val with
    | error f => exact ⟨_, by rw [exec, execDrw, hr]; rfl, .fault f⟩
    | ok rows =>
      exact ⟨_, exec_drw_of_rows x y hr, .display _ _ (.inr ⟨x, y, n, rfl⟩)
        fun _ hr => readReg_writeReg_ne s _ (by simpa [writtenRegs] using hr)⟩
  | ldDT x => exact ⟨_, rfl, .delayTimer x _ rfl⟩
  | ldST x => exact ⟨_, rfl, .soundTimer x _ rfl⟩

theorem effect_of_exec {i : Instr} {s t : State} (h : exec i s = .next t) : Effect i s t := by
  obtain ⟨u, hu, heff⟩ := exec_effect i s
  rw [h] at hu
  cases hu
  exact heff

end Sys2Proof.Machine
end

section
/-! The obligations that a shape of the next state answers: the registers written, PC, and which instruction changes which
state. -/

namespace Sys2Proof.Machine

/-- Settles O28: each shape of the next state writes the listed registers alone. -/
theorem onlyTheListedRegistersAreWritten : Obligations.OnlyTheListedRegistersAreWritten := by
  unfold Obligations.OnlyTheListedRegistersAreWritten
  intro i s t h
  cases effect_of_exec h with
  | loadFault v f hregs => exact hregs
  | regs v n hregs hpc => exact hregs
  | display v fb hi hregs => exact hregs
  | _ => exact fun _ _ => rfl

/-- PC and the status after an instruction: PC as the rules allow and the status kept, or a fault and PC kept. -/
theorem Effect.pc_status {i : Instr} {s t : State} (h : Effect i s t) :
    (t.status = s.status ∧ pcAllowed i s t) ∨ ((∃ f, t.status = .faulted f) ∧ t.pc = s.pc) := by
  cases h with
  | fault f => exact .inr ⟨⟨f, rfl⟩, rfl⟩
  | loadFault v f hregs => exact .inr ⟨⟨f, rfl⟩, rfl⟩
  | storeFault m f hi hfont hwf => exact .inr ⟨⟨f, rfl⟩, rfl⟩
  | jump w hpc => exact .inl ⟨rfl, hpc⟩
  | regs v n hregs hpc => exact .inl ⟨rfl, hpc⟩
  | pop hi h =>
    subst hi
    refine .inl ⟨rfl, s.sp.entries.val - 1, by omega, rfl, ?_, rfl⟩
    simp only [StackPointer.bytes]
    omega
  | push nnn hi h => subst hi; exact .inl ⟨rfl, toNat_zextAddr nnn⟩
  | index w hi => rcases hi with ⟨nnn, rfl⟩ | ⟨x, rfl⟩ | ⟨x, rfl⟩ <;> exact .inl ⟨rfl, rfl⟩
  | store m hi hfont hwf =>
    match i, hi with
    | .ldB _, _ | .ldMem _, _ => exact .inl ⟨rfl, rfl⟩
  | display v fb hi hregs => rcases hi with rfl | ⟨x, y, n, rfl⟩ <;> exact .inl ⟨rfl, rfl⟩
  | delayTimer x b hi => subst hi; exact .inl ⟨rfl, rfl⟩
  | soundTimer x b hi => subst hi; exact .inl ⟨rfl, rfl⟩

/-- Settles O29: from a running state the status alone tells an instruction that ran from one that faulted. -/
theorem pcMovesAsTheRulesSay : Obligations.PcMovesAsTheRulesSay := by
  unfold Obligations.PcMovesAsTheRulesSay
  intro i s t hrun h
  obtain ⟨hkept, hpc⟩ | ⟨⟨f, hfault⟩, hpc⟩ := (effect_of_exec h).pc_status
  · exact ⟨fun _ => hpc, fun hstop => absurd (hkept.trans hrun) hstop⟩
  · exact ⟨fun hgo => by simp [hfault] at hgo, fun _ => hpc⟩

/-- Settles O50: each shape changes one part of the state and names the instructions it belongs to. -/
theorem eachStateChangesOnlyByItsInstructions : Obligations.EachStateChangesOnlyByItsInstructions := by
  unfold Obligations.EachStateChangesOnlyByItsInstructions
  intro i s t h
  cases effect_of_exec h with
  | pop hi h => simp [SameDisplay, hi]
  | push nnn hi h => simp [SameDisplay, hi]
  | index w hi => simp [SameStack, SameDisplay, hi]
  | store m hi hfont hwf => simp [SameStack, SameDisplay, hi, hfont]
  | storeFault m f hi hfont hwf => simp [SameStack, SameDisplay, hi, hfont]
  | display v fb hi hregs => simp [SameStack, hi]
  | delayTimer x b hi => simp [SameStack, SameDisplay, hi]
  | soundTimer x b hi => simp [SameStack, SameDisplay, hi]
  | _ => simp [SameStack, SameDisplay]

end Sys2Proof.Machine
end

section
/-! The invariant of the core, clause by clause over the shapes of the next state. -/

namespace Sys2Proof.Machine

/-- PC after an instruction whose two bytes were fetched: the largest target is 0xFFF + 0xFF, of BNNN (10_state.md R39). -/
theorem pc_le_of_pcAllowed {i : Instr} {s t : State} (hpc : pcAllowed i s t) (hfetch : s.pc.toNat + 1 ≤ 0xE9F)
    (hlive : liveStackBounded s) : t.pc.toNat ≤ 0x10FE := by
  have hnext : (s.pc + 2).toNat ≤ 0x10FE := by bv_omega
  have hskip : (s.pc + 4).toNat ≤ 0x10FE := by bv_omega
  cases i with
  | sys nnn | jp nnn | call nnn => have hn := nnn.isLt; simp only [pcAllowed] at hpc; omega
  | jpV0 nnn =>
    have hn := nnn.isLt
    have hv := (readReg s 0).isLt
    simp only [pcAllowed] at hpc
    omega
  | ret =>
    obtain ⟨k, hk, hsp, hsp', hpc⟩ := hpc
    simp only [StackPointer.bytes] at hsp hsp'
    have hentry := hlive k (by omega)
    rw [hpc]
    bv_omega
  | seByte x nn | sneByte x nn | seReg x y | sneReg x y => simp only [pcAllowed] at hpc; rw [hpc]; split <;> assumption
  | skp x | sknp x => obtain ⟨_, hpc⟩ := hpc; rw [hpc]; split <;> assumption
  | ldKey x => obtain ⟨hpc, -⟩ | ⟨hpc, -⟩ := hpc <;> rw [hpc] <;> omega
  | _ => rw [show t.pc = s.pc + 2 from hpc]; exact hnext

theorem Effect.wf {i : Instr} {s t : State} (h : Effect i s t) (hm : s.mem.wf) : t.mem.wf := by
  cases h with
  | store m hi hfont hwf => exact hwf hm
  | storeFault m f hi hfont hwf => exact hwf hm
  | _ => exact hm

/-- A return only shortens the stack, a call pushes the address it was fetched from. -/
theorem Effect.liveStackBounded {i : Instr} {s t : State} (h : Effect i s t) (hfetch : s.pc.toNat + 1 ≤ 0xE9F)
    (hlive : liveStackBounded s) : liveStackBounded t := by
  cases h with
  | pop hi h => exact fun k hk => hlive k (by dsimp only at hk; omega)
  | push nnn hi h =>
    intro k hk
    dsimp only at hk ⊢
    rw [Vector.getElem_set]
    split
    · omega
    · exact hlive k (by omega)
  | _ => exact hlive

/-- An instruction that was fetched keeps the invariant. -/
theorem CoreInv.exec {i : Instr} {s t : State} (hs : CoreInv s) (hfetch : s.pc.toNat + 1 ≤ 0xE9F)
    (h : exec i s = .next t) : CoreInv t := by
  obtain ⟨hm, hpc, hlive⟩ := hs
  have heff := effect_of_exec h
  refine ⟨heff.wf hm, ?_, heff.liveStackBounded hfetch hlive⟩
  obtain ⟨-, hpc'⟩ | ⟨-, hpc'⟩ := heff.pc_status
  · exact pc_le_of_pcAllowed hpc' hfetch hlive
  · rw [hpc']; exact hpc

/-- Settles O12: a step that ends in the fetch or the decode changes `status` alone, and the decay no clause of the
invariant. -/
theorem everyStepKeepsTheInvariant : Obligations.EveryStepKeepsTheInvariant := by
  unfold Obligations.EveryStepKeepsTheInvariant
  intro s t hs h
  cases hrun : s.status with
  | faulted f => rw [step_of_faulted hrun] at h; cases h
  | running =>
    obtain ⟨-, f, rfl, -⟩ | ⟨i, -, hfetch, u, he, ⟨-, rfl⟩ | ⟨-, rfl⟩⟩ := step_cases hrun h
    · exact hs
    · have hu : CoreInv u := hs.exec hfetch he
      exact hu
    · exact hs.exec hfetch he

end Sys2Proof.Machine
end

section
/-! The two parts of the state no instruction reads, ST and `dirty`: a step carries any values of them through, by functions
that depend on nothing else. -/

namespace Sys2Proof.Machine

/-- The state with other values of ST and `dirty`. -/
def withUnread (b : Byte) (d : Bool) (s : State) : State := { s with st := b, dirty := d }

@[simp] theorem withUnread_self (s : State) : withUnread s.st s.dirty s = s := rfl

@[simp] theorem indexAddr_withUnread (b : Byte) (d : Bool) (s : State) :
    indexAddr (withUnread b d s) = indexAddr s := rfl
@[simp] theorem keyOperand_withUnread (b : Byte) (d : Bool) (s : State) (x : RegIx) :
    keyOperand (withUnread b d s) x = keyOperand s x := rfl
@[simp] theorem firstKey_withUnread (b : Byte) (d : Bool) (s : State) :
    firstKey (withUnread b d s) = firstKey s := rfl
@[simp] theorem fetch_withUnread (b : Byte) (d : Bool) (s : State) : fetch (withUnread b d s) = fetch s := rfl

@[simp] theorem readBytes_withUnread (b : Byte) (d : Bool) (s : State) (a n : Nat) :
    readBytes (withUnread b d s) a n = readBytes s a n := by
  induction n generalizing a with
  | zero => rfl
  | succ n ih => rw [readBytes, readBytes, ih]; rfl

@[simp] theorem storeBytes_withUnread (b : Byte) (d : Bool) (a : Nat) (bs : List Byte) (s : State) :
    storeBytes a bs (withUnread b d s) = ((withUnread b d (storeBytes a bs s).1), (storeBytes a bs s).2) := by
  induction bs generalizing a s with
  | nil => rfl
  | cons c bs ih =>
    by_cases ha : 0x200 ≤ a ∧ a ≤ 0xE9F
    · rw [storeBytes, storeBytes, writeByte_ok c ha, writeByte_ok c ha]
      exact ih (a + 1) { s with mem := s.mem.poke a c }
    · rw [storeBytes, storeBytes, writeByte_error c ha, writeByte_error c ha]

@[simp] theorem loadRegsFrom_withUnread (b : Byte) (d : Bool) (a : Nat) (xs : List RegIx) (s : State) :
    loadRegsFrom a xs (withUnread b d s) = ((withUnread b d (loadRegsFrom a xs s).1), (loadRegsFrom a xs s).2) := by
  induction xs generalizing a s with
  | nil => rfl
  | cons x xs ih =>
    by_cases ha : a ≤ 0xE9F
    · rw [loadRegsFrom, loadRegsFrom, readByte_ok ha, readByte_ok ha]
      exact ih (a + 1) (writeReg s x (s.mem.peek a))
    · rw [loadRegsFrom, loadRegsFrom, readByte_error (by omega), readByte_error (by omega)]

/-- `F` takes `s` to `t` whatever ST and `dirty` are: each reaches only itself, by a function of its own value. -/
def CarriesUnread (F : State → Result) (s t : State) : Prop :=
  ∃ (f : Byte → Byte) (g : Bool → Bool), ∀ b d, F (withUnread b d s) = .next (withUnread (f b) (g d) t)

/-- ST and `dirty` pass through unchanged: every instruction but FX18, 00E0 and DXYN. -/
theorem CarriesUnread.of_id {F : State → Result} {s t : State}
    (h : ∀ b d, F (withUnread b d s) = .next (withUnread b d t)) : CarriesUnread F s t := ⟨id, id, h⟩

/-- The end of a transfer whose operations carry ST and `dirty` through. -/
theorem CarriesUnread.of_transfer {F : State → Result} {s t : State} {T : State → State × Option Fault}
    (hF : ∀ s, F s = finishTransfer (T s)) (hT : ∀ b d, T (withUnread b d s) = (withUnread b d (T s).1, (T s).2))
    (h : F s = .next t) : CarriesUnread F s t := by
  refine .of_id fun b d => ?_
  rcases hp : T s with ⟨u, o⟩
  rw [hF, hp] at h
  rw [hF, hT, hp]
  cases o <;> cases h <;> rfl

/-- An instruction reads neither ST nor `dirty`; FX18 sets the one, 00E0 and DXYN the other (10_state.md R44, R47). -/
theorem exec_carriesUnread {i : Instr} {s t : State} (h : exec i s = .next t) : CarriesUnread (exec i) s t := by
  cases i with
  | ret =>
    by_cases hsp : 0 < s.sp.entries.val
    · rw [exec_ret_of_pos hsp] at h; cases h
      exact .of_id fun b d => exec_ret_of_pos (s := withUnread b d s) hsp
    · have hempty : s.sp.entries.val = 0 := by omega
      rw [exec_ret_of_zero hempty] at h; cases h
      exact .of_id fun b d => exec_ret_of_zero (s := withUnread b d s) hempty
  | call nnn =>
    by_cases hsp : s.sp.entries.val < 24
    · rw [exec_call_of_lt nnn hsp] at h; cases h
      exact .of_id fun b d => exec_call_of_lt (s := withUnread b d s) nnn hsp
    · have hfull : s.sp.entries.val = 24 := by omega
      rw [exec_call_of_full nnn hfull] at h; cases h
      exact .of_id fun b d => exec_call_of_full (s := withUnread b d s) nnn hfull
  | addI x =>
    by_cases hsum : s.i.toNat + (readReg s x).toNat ≤ 0xFFFF
    · rw [exec_addI_of_le x hsum] at h; cases h
      exact .of_id fun b d => exec_addI_of_le (s := withUnread b d s) x hsum
    · have hgt : 0xFFFF < s.i.toNat + (readReg s x).toNat := by omega
      rw [exec_addI_of_gt x hgt] at h; cases h
      exact .of_id fun b d => exec_addI_of_gt (s := withUnread b d s) x hgt
  | ldB x | ldMem x => exact .of_transfer (fun _ => rfl) (fun b d => storeBytes_withUnread b d _ _ s) h
  | ldRegs x => exact .of_transfer (fun _ => rfl) (fun b d => loadRegsFrom_withUnread b d _ _ s) h
  | skp x =>
    rw [exec, execSkp] at h
    refine .of_id fun b d => ?_
    rw [exec, execSkp, keyOperand_withUnread]
    cases hk : keyOperand s x <;> rw [hk] at h <;> cases h <;> rfl
  | sknp x =>
    rw [exec, execSknp] at h
    refine .of_id fun b d => ?_
    rw [exec, execSknp, keyOperand_withUnread]
    cases hk : keyOperand s x <;> rw [hk] at h <;> cases h <;> rfl
  | ldKey x =>
    rw [exec, execLdKey] at h
    refine .of_id fun b d => ?_
    rw [exec, execLdKey, firstKey_withUnread]
    cases hk : firstKey s <;> rw [hk] at h <;> cases h <;> rfl
  | cls => cases h; exact ⟨id, fun _ => true, fun _ _ => rfl⟩
  | drw x y n =>
    cases hr : readBytes s (indexAddr s) n.val with
    | error f =>
      rw [exec, execDrw, hr] at h; cases h
      refine .of_id fun b d => ?_
      rw [exec, execDrw, indexAddr_withUnread, readBytes_withUnread, hr]; rfl
    | ok rows =>
      rw [exec_drw_of_rows x y hr] at h; cases h
      exact ⟨id, fun _ => true, fun b d =>
        exec_drw_of_rows (s := withUnread b d s) x y ((readBytes_withUnread b d s _ _).trans hr)⟩
  | ldST x => cases h; exact ⟨fun _ => readReg s x, id, fun _ _ => rfl⟩
  | _ => cases h; exact .of_id fun _ _ => rfl

/-- The end of the step: the decay of ST is a function of ST alone, and whether it happens is the status's to say. -/
theorem endStep_carriesUnread {i : Instr} {s t : State} (h : endStep (exec i s) = .next t) :
    CarriesUnread (fun s => endStep (exec i s)) s t := by
  obtain ⟨u, he, -⟩ := exec_effect i s
  obtain ⟨f, g, hu⟩ := exec_carriesUnread he
  rw [he, endStep] at h
  split at h <;> rename_i hrun <;> cases h
  · exact ⟨decayTimer ∘ f, g, fun b d => by dsimp only; rw [hu, endStep, if_pos (by exact hrun)]; rfl⟩
  · exact ⟨f, g, fun b d => by dsimp only; rw [hu, endStep, if_neg (by exact hrun)]⟩

/-- A step reads neither ST nor `dirty`: the fetch and the decode read memory, PC and the status alone. -/
theorem step_carriesUnread {s t : State} (h : step s = .next t) : CarriesUnread step s t := by
  cases hrun : s.status with
  | faulted f => rw [step_of_faulted hrun] at h; cases h
  | running =>
    cases hf : fetch s with
    | error f =>
      rw [step_of_fetch_error hrun hf] at h; cases h
      exact .of_id fun b d => step_of_fetch_error (s := withUnread b d s) hrun hf
    | ok w =>
      cases hd : decodeWord w with
      | error e =>
        rw [step_of_decode_error hrun hf hd] at h; cases h
        exact .of_id fun b d => step_of_decode_error (s := withUnread b d s) hrun hf hd
      | ok i =>
        have hi : nextInstr s = some i := by simp only [nextInstr, hf, hd]
        rw [step_of_nextInstr hrun hi] at h
        obtain ⟨f, g, hfg⟩ := endStep_carriesUnread h
        exact ⟨f, g, fun b d => (step_of_nextInstr (s := withUnread b d s) hrun hi).trans (hfg b d)⟩

/-- The functions agree with the state compared: `t` holds what they make of the values of `s`. -/
theorem CarriesUnread.agrees {F : State → Result} {s t : State} (h : CarriesUnread F s t) (hs : F s = .next t) :
    ∃ (f : Byte → Byte) (g : Bool → Bool), f s.st = t.st ∧ g s.dirty = t.dirty ∧
      ∀ b d, F (withUnread b d s) = .next (withUnread (f b) (g d) t) := by
  obtain ⟨f, g, hfg⟩ := h
  have ht : t = withUnread (f s.st) (g s.dirty) t := by
    have hself := hfg s.st s.dirty
    rw [withUnread_self, hs] at hself
    exact Host.Outcome.next.inj hself
  exact ⟨f, g, (congrArg State.st ht).symm, (congrArg State.dirty ht).symm, hfg⟩

/-- Settles O51: `dirty` is left as it is, and ST reaches ST alone. -/
theorem soundTimerIsReadByNoInstruction : Obligations.SoundTimerIsReadByNoInstruction := by
  unfold Obligations.SoundTimerIsReadByNoInstruction
  intro s t b h
  obtain ⟨f, g, -, hdirty, hfg⟩ := (step_carriesUnread h).agrees h
  refine ⟨f b, (hfg b s.dirty).trans ?_⟩
  rw [hdirty]; rfl

theorem exec_dirty {i : Instr} {s t : State} (h : exec i s = .next t) (hs : s.dirty = true) : t.dirty = true := by
  cases effect_of_exec h with
  | display v fb hi hregs => rfl
  | _ => exact hs

theorem step_dirty {s t : State} (h : step s = .next t) (hs : s.dirty = true) : t.dirty = true := by
  cases hrun : s.status with
  | faulted f => rw [step_of_faulted hrun] at h; cases h
  | running =>
    obtain ⟨-, f, rfl, -⟩ | ⟨i, -, -, u, he, ⟨-, rfl⟩ | ⟨-, rfl⟩⟩ := step_cases hrun h
    · exact hs
    · exact exec_dirty (t := u) he hs
    · exact exec_dirty he hs

/-- Settles O52: ST is left as it is, and `dirty` reaches `dirty` alone. -/
theorem stepsNeverClearDirty : Obligations.StepsNeverClearDirty := by
  unfold Obligations.StepsNeverClearDirty
  intro s t h
  obtain ⟨f, g, hst, -, hfg⟩ := (step_carriesUnread h).agrees h
  refine ⟨step_dirty h, fun d => ⟨g d, (hfg s.st d).trans ?_⟩⟩
  rw [hst]; rfl

end Sys2Proof.Machine
end

section
/-! Decoding gives back the instruction that was encoded (30_encoding.md R122, R123): by format, the fields a word was
packed from are the fields it decodes to. -/

namespace Sys2Proof

/-- 0NNN decodes to itself, as NNN names neither of the two words the row excludes. -/
theorem decodeGroup0_packNNN {nnn : Addr} (h : Addr.isSysTarget nnn = true) :
    decodeGroup0 (packNNN 0x0 nnn) = .sys nnn := by
  have hfield : nnnField (packNNN 0x0 nnn) = nnn := (fields_packNNN (by decide) nnn).2
  have hne : nnn ≠ 0x0E0#12 ∧ nnn ≠ 0x0EE#12 := by simpa [Addr.isSysTarget] using h
  have hcls : packNNN 0x0 nnn ≠ 0x00E0#16 := fun hw => hne.1 (by rw [← hfield, hw]; rfl)
  have hret : packNNN 0x0 nnn ≠ 0x00EE#16 := fun hw => hne.2 (by rw [← hfield, hw]; rfl)
  rw [decodeGroup0, if_neg hcls, if_neg hret, hfield]

theorem decodeWord_encode {i : Instr} (h : i.wellFormed = true) : decodeWord (encode i) = .ok i := by
  cases i with
  | cls | ret => rfl
  | sys nnn => simp [encode, decodeWord, fields_packNNN, decodeGroup0_packNNN h]
  | jp nnn | call nnn | jpV0 nnn | ldI nnn => simp [encode, decodeWord, fields_packNNN]
  | seByte x nn | sneByte x nn | ldByte x nn | addByte x nn | rnd x nn => simp [encode, decodeWord, fields_packXNN]
  | seReg x y | sneReg x y => simp [encode, decodeWord, fields_packXYN]
  | drw x y n => simp [encode, decodeWord, fields_packXYN]
  | ldReg x y | orReg x y | andReg x y | xorReg x y | addReg x y | subReg x y | shr x y | subn x y | shl x y =>
    simp [encode, decodeWord, decodeGroup8, fields_packXYN]
  | skp x | sknp x => simp [encode, decodeWord, decodeGroupE, fields_packXNN]
  | addI x | ldB x | ldMem x | ldRegs x | ldF x | ldKey x | ldVxDT x | ldDT x | ldST x =>
    simp [encode, decodeWord, decodeGroupF, fields_packXNN]

end Sys2Proof
end

section
/-! Memory as data and as the accesses see it: the canonical form is determined by the bytes held, and what a write
leaves. -/

namespace Sys2Proof.Machine

/-! ## The canonical form -/

theorem Memory.unlisted_congr {m n : Memory} (h : m.font = n.font) (a : Nat) : m.unlisted a = n.unlisted a := by
  rw [Memory.unlisted, Memory.unlisted, h]

/-- A memory in canonical form lists exactly the bytes that differ from what an unlisted address reads as. -/
theorem Memory.mem_cells_iff {m : Memory} (hm : m.wf) (c : Host.Cell) :
    c ∈ m.cells ↔ m.peek c.1 = c.2 ∧ c.2 ≠ m.unlisted c.1 := by
  constructor
  · intro hc
    exact ⟨by rw [Memory.peek, lookupCell_of_mem hm.1 hc]; rfl, (hm.2 c hc).2⟩
  · rintro ⟨hpeek, hne⟩
    rw [Memory.peek] at hpeek
    cases hlook : lookupCell m.cells c.1 with
    | none => rw [hlook] at hpeek; exact absurd hpeek.symm hne
    | some b =>
      rw [hlook] at hpeek
      obtain rfl : b = c.2 := hpeek
      exact lookupCell_mem hlook

/-- Cells in strictly rising order are determined by which cells they are. -/
theorem eq_of_mem_cells_iff {cs ds : List Host.Cell} (hcs : cs.Pairwise fun c d => c.1 < d.1)
    (hds : ds.Pairwise fun c d => c.1 < d.1) (h : ∀ c, c ∈ cs ↔ c ∈ ds) : cs = ds := by
  have : Std.Irrefl fun c d : Host.Cell => c.1 < d.1 := ⟨fun c => lt_irrefl c.1⟩
  have : Std.Antisymm fun c d : Host.Cell => c.1 < d.1 := ⟨fun _ _ hcd hdc => absurd hdc (lt_asymm hcd)⟩
  exact hcs.eq_of_mem_iff hds h

/-- Settles O39: which cells a canonical memory lists can be read off its bytes. -/
theorem equalMemoriesAreEqualData : Obligations.EqualMemoriesAreEqualData := by
  unfold Obligations.EqualMemoriesAreEqualData
  intro m n hm hn hfont hpeek
  have hcells : m.cells = n.cells := eq_of_mem_cells_iff hm.1 hn.1 fun c => by
    rw [Memory.mem_cells_iff hm, Memory.mem_cells_iff hn, hpeek, Memory.unlisted_congr hfont]
  calc m = ⟨m.font, m.cells⟩ := rfl
    _ = ⟨n.font, n.cells⟩ := by rw [hfont, hcells]

/-! ## Reads and writes -/

/-- A read depends on the byte held at its address only. -/
theorem readByte_congr_peek {s t : State} {a : Nat} (h : t.mem.peek a = s.mem.peek a) : readByte t a = readByte s a := by
  rw [readByte, readByte, h]

theorem wf_of_writeByte {s t : State} {a : Nat} {b : Byte} (h : writeByte s a b = .ok t) (hm : s.mem.wf) : t.mem.wf := by
  obtain ⟨ha, rfl⟩ := writeByte_inv h
  exact Memory.wf_poke hm ((writable_iff a).2 ha) b

theorem pc_of_writeByte {s t : State} {a : Nat} {b : Byte} (h : writeByte s a b = .ok t) : t.pc = s.pc := by
  obtain ⟨-, rfl⟩ := writeByte_inv h
  rfl

theorem readByte_of_writeByte_self {s t : State} {a : Nat} {b : Byte} (h : writeByte s a b = .ok t) (hm : s.mem.wf) :
    readByte t a = .ok b := by
  obtain ⟨ha, rfl⟩ := writeByte_inv h
  rw [readByte_ok ha.2, Memory.peek_poke _ hm, if_pos rfl]

theorem readByte_of_writeByte_ne {s t : State} {a c : Nat} {b : Byte} (h : writeByte s a b = .ok t) (hc : c ≠ a) :
    readByte t c = readByte s c := by
  obtain ⟨-, rfl⟩ := writeByte_inv h
  exact readByte_congr_peek (Memory.peek_poke_ne s.mem b hc)

/-- Settles O36: the zone table as bounds. -/
theorem accessRightsFollowTheZones : Obligations.AccessRightsFollowTheZones := by
  unfold Obligations.AccessRightsFollowTheZones
  intro s a b
  exact ⟨readByte_ok, readByte_error, fun hlo hhi => ⟨_, writeByte_ok b ⟨hlo, hhi⟩⟩,
    fun hout => writeByte_error b (by omega)⟩

/-- Settles O37: a write that was made is one poke of a writable address. -/
theorem writtenByteReadsBack : Obligations.WrittenByteReadsBack := by
  unfold Obligations.WrittenByteReadsBack
  intro s t a b hm h
  exact ⟨wf_of_writeByte h hm, readByte_of_writeByte_self h hm, fun _ => readByte_of_writeByte_ne h⟩

end Sys2Proof.Machine
end

section
/-! The font and reserved zones: FONT alone determines what they read as, and no step changes it (20_memory.md R85,
R86). -/

namespace Sys2Proof.Machine

/-- Below the program zone a byte holds what it held at construction (20_memory.md R85, R86). -/
theorem readByte_of_lt_program {s : State} (hm : s.mem.wf) {a : Nat} (ha : a < 0x200) :
    readByte s a = .ok (s.mem.unlisted a) := by
  have hread_only : writable a = false := by rw [Bool.eq_false_iff, ne_eq, writable_iff]; omega
  rw [readByte_ok (by omega), Memory.peek_of_not_writable hm hread_only]

theorem Effect.font {i : Instr} {s t : State} (h : Effect i s t) : t.mem.font = s.mem.font := by
  cases h with
  | store m hi hfont hwf => exact hfont
  | storeFault m f hi hfont hwf => exact hfont
  | _ => rfl

/-- A step keeps FONT and the canonical form, however it ends. -/
theorem step_font_wf {s t : State} (h : step s = .next t) : t.mem.font = s.mem.font ∧ (s.mem.wf → t.mem.wf) := by
  cases hrun : s.status with
  | faulted f => rw [step_of_faulted hrun] at h; cases h
  | running =>
    obtain ⟨-, f, rfl, -⟩ | ⟨i, -, -, u, he, hu⟩ := step_cases hrun h
    · exact ⟨rfl, id⟩
    · have hmem : t.mem = u.mem := by
        obtain ⟨-, rfl⟩ | ⟨-, rfl⟩ := hu <;> rfl
      rw [hmem]
      exact ⟨(effect_of_exec he).font, (effect_of_exec he).wf⟩

/-- Settles O15: below the program zone a canonical memory reads as FONT alone determines, and a step keeps FONT and the
canonical form. -/
theorem fontAndReservedZonesNeverChange : Obligations.FontAndReservedZonesNeverChange := by
  unfold Obligations.FontAndReservedZonesNeverChange
  intro s hm
  refine ⟨fun a ha => ?_, fun a hlo hhi => ?_, fun t h => ?_⟩
  · rw [readByte_of_lt_program hm (by omega), Memory.unlisted, dif_pos ha]
  · rw [readByte_of_lt_program hm hhi, Memory.unlisted, dif_neg (by omega)]
  · obtain ⟨hfont, hwf⟩ := step_font_wf h
    refine ⟨hfont, fun a ha => ?_⟩
    rw [readByte_of_lt_program (hwf hm) ha, readByte_of_lt_program hm ha, Memory.unlisted_congr hfont]

end Sys2Proof.Machine
end

section
/-! Programs in memory: an instruction stored at PC is the next to execute, and what the host's program load stores
(20_memory.md R89, R97, R99, R100). -/

namespace Sys2Proof.Machine

theorem fetch_of_reads {s : State} {hi lo : Byte} (hhi : readByte s s.pc.toNat = .ok hi)
    (hlo : readByte s (s.pc.toNat + 1) = .ok lo) : fetch s = .ok (wordOfBytes hi lo) := by
  simp only [fetch, hhi, hlo]

theorem nextInstr_of_fetch {s : State} {w : Word} {i : Instr} (hf : fetch s = .ok w) (hd : decodeWord w = .ok i) :
    nextInstr s = some i := by
  simp only [nextInstr, hf, hd]

/-- Settles O38: both bytes read back, the first past the write of the second, and the word they make decodes. -/
theorem storedInstructionIsFetched : Obligations.StoredInstructionIsFetched := by
  unfold Obligations.StoredInstructionIsFetched
  intro i s t u hi hm hhigh hlow
  have hpc : u.pc = s.pc := (pc_of_writeByte hlow).trans (pc_of_writeByte hhigh)
  have hhi : readByte u u.pc.toNat = .ok (highByte (encode i)) := by
    rw [hpc, readByte_of_writeByte_ne hlow (by omega), readByte_of_writeByte_self hhigh hm]
  have hlo : readByte u (u.pc.toNat + 1) = .ok (lowByte (encode i)) := by
    rw [hpc, readByte_of_writeByte_self hlow (wf_of_writeByte hhigh hm)]
  have hfetch : fetch u = .ok (encode i) := by rw [fetch_of_reads hhi hlo, wordOfBytes_high_low]
  exact nextInstr_of_fetch hfetch (decodeWord_encode hi)

/-- A program that fits is stored whole, and memory alone changes. -/
theorem loadProgram_of_fits {bytes : List Byte} {s : State} (hm : s.mem.wf) (h : bytes.length ≤ maxProgram) :
    ∃ m, loadProgram bytes s = ({ s with mem := m }, .ok) ∧
      ∀ d, m.peek d = if 0x200 ≤ d then (bytes[d - 0x200]?).getD (s.mem.peek d) else s.mem.peek d := by
  rw [maxProgram] at h
  obtain ⟨m, hstore, -, -, hpeek⟩ := storeBytes_ok 0x200 bytes s hm fun _ => by omega
  exact ⟨m, by rw [loadProgram, if_neg (by rw [maxProgram]; omega), hstore], hpeek⟩

/-- Settles O55: the program zone has room for 3232 bytes from 0x200, so no store of a program that fits is rejected. -/
theorem programLoadStoresTheBytes : Obligations.ProgramLoadStoresTheBytes := by
  unfold Obligations.ProgramLoadStoresTheBytes
  intro bytes s hm
  refine ⟨fun hfits => ?_, fun hlong => if_pos hlong⟩
  obtain ⟨m, hload, hpeek⟩ := loadProgram_of_fits hm hfits
  refine ⟨_, hload, fun j hj => ?_, OnlyMem.of_eq (fun b hb => readByte_congr_peek ?_) rfl, rfl⟩
  · rw [readByte_ok (by omega), hpeek]
    simp [hj]
  · obtain hbelow | habove := hb
    · rw [hpeek, if_neg (by omega)]
    · rw [hpeek, if_pos (by omega), List.getElem?_eq_none (by omega), Option.getD_none]

end Sys2Proof.Machine
end

section
/-! Encoding gives back the word that was decoded (30_encoding.md R123, R125), and with it the obligations on the decode
table: its rows, and the words no row matches (R124). -/

namespace Sys2Proof

/-- Settles O2: the word decodes to what was encoded, and the two bytes make the word. -/
theorem decodeOfEncodeIsTheInstruction : Obligations.DecodeOfEncodeIsTheInstruction := by
  unfold Obligations.DecodeOfEncodeIsTheInstruction
  intro i hi
  refine ⟨decodeWord_encode hi, fun rest => ?_⟩
  have hbytes : encodeBytes i ++ rest = highByte (encode i) :: lowByte (encode i) :: rest := rfl
  rw [hbytes, decode, wordOfBytes_high_low, decodeWord_encode hi]

/-! ## Encode of decode, by group -/

theorem isSysTarget_iff {nnn : Addr} : Addr.isSysTarget nnn = true ↔ nnn ≠ 0x0E0 ∧ nnn ≠ 0x0EE := by
  simp [Addr.isSysTarget]

section Packing
variable {w : Word} {g : Nat} (hg : groupField w = g)
include hg

theorem packNNN_of_group : packNNN g (nnnField w) = w := hg ▸ (pack_fields w).1

theorem packXNN_of_group : packXNN g (xField w) (nnField w) = w := hg ▸ (pack_fields w).2.1

theorem packXYN_of_group : packXYN g (xField w) (yField w) (nField w) = w := hg ▸ (pack_fields w).2.2

/-- A word whose NN is a sub-opcode, as the decoder compares it. -/
theorem packXNN_of_nn {nn : Byte} (hnn : (nnField w).toNat = nn.toNat) : packXNN g (xField w) nn = w := by
  rw [← BitVec.eq_of_toNat_eq hnn]
  exact packXNN_of_group hg

/-- A word whose N is a sub-opcode. -/
theorem packXYN_of_n {n : RowCount} (hn : nField w = n) : packXYN g (xField w) (yField w) n = w := by
  rw [← hn]
  exact packXYN_of_group hg

end Packing

/-- A word of group 0 is CLS, RET or the jump to its NNN, and then NNN is neither of the two excluded targets. -/
theorem encode_decodeGroup0 {w : Word} (hg : groupField w = 0x0) :
    (decodeGroup0 w).wellFormed = true ∧ encode (decodeGroup0 w) = w := by
  have hpack := packNNN_of_group hg
  by_cases hcls : w = 0x00E0#16
  · subst hcls; exact ⟨rfl, rfl⟩
  by_cases hret : w = 0x00EE#16
  · subst hret; exact ⟨rfl, rfl⟩
  rw [decodeGroup0, if_neg hcls, if_neg hret]
  have hne_cls : nnnField w ≠ 0x0E0 := fun h => hcls (by rw [← hpack, h]; rfl)
  have hne_ret : nnnField w ≠ 0x0EE := fun h => hret (by rw [← hpack, h]; rfl)
  exact ⟨isSysTarget_iff.2 ⟨hne_cls, hne_ret⟩, hpack⟩

theorem encode_of_decodeGroup8 {w : Word} {i : Instr} (hg : groupField w = 0x8) (h : decodeGroup8 w = .ok i) :
    i.wellFormed = true ∧ encode i = w := by
  unfold decodeGroup8 at h
  split at h <;> rename_i hn <;> cases h <;> exact ⟨rfl, packXYN_of_n hg (Fin.ext hn)⟩

theorem encode_of_decodeGroupE {w : Word} {i : Instr} (hg : groupField w = 0xE) (h : decodeGroupE w = .ok i) :
    i.wellFormed = true ∧ encode i = w := by
  unfold decodeGroupE at h
  split at h <;> rename_i hnn <;> cases h <;> exact ⟨rfl, packXNN_of_nn hg hnn⟩

theorem encode_of_decodeGroupF {w : Word} {i : Instr} (hg : groupField w = 0xF) (h : decodeGroupF w = .ok i) :
    i.wellFormed = true ∧ encode i = w := by
  unfold decodeGroupF at h
  split at h <;> rename_i hnn <;> cases h <;> exact ⟨rfl, packXNN_of_nn hg hnn⟩

/-- The cases are `decodeWord`'s arms in its order: `h_1` is group 0, `h_16` group F and `h_17` the arm never taken. -/
theorem encode_of_decodeWord {w : Word} {i : Instr} (h : decodeWord w = .ok i) :
    i.wellFormed = true ∧ encode i = w := by
  unfold decodeWord at h
  split at h <;> rename_i hg
  case h_1 => cases h; exact encode_decodeGroup0 hg
  case h_9 => exact encode_of_decodeGroup8 hg h
  case h_15 => exact encode_of_decodeGroupE hg h
  case h_16 => exact encode_of_decodeGroupF hg h
  case h_6 | h_10 => split at h <;> rename_i hn <;> cases h; exact ⟨rfl, packXYN_of_n hg hn⟩
  case h_2 | h_3 | h_11 | h_12 => cases h; exact ⟨rfl, packNNN_of_group hg⟩
  case h_4 | h_5 | h_7 | h_8 | h_13 => cases h; exact ⟨rfl, packXNN_of_group hg⟩
  case h_14 => cases h; exact ⟨rfl, packXYN_of_group hg⟩
  case h_17 => cases h

/-- Settles O3: by group, the fields a word decodes to are the fields it is packed from. -/
theorem encodeOfDecodeIsTheWord : Obligations.EncodeOfDecodeIsTheWord := by
  unfold Obligations.EncodeOfDecodeIsTheWord
  exact fun _ _ => encode_of_decodeWord

/-! ## The rows of the table, a word being its fields side by side (30_encoding.md R122) -/

section Rows
variable {g : BitVec 4} {i : Instr}

theorem decodeWord_of_encode {w : Word} (hi : i.wellFormed = true) (he : encode i = w) : decodeWord w = .ok i :=
  he ▸ decodeWord_encode hi

theorem decodeWord_append_NNN {nnn : Addr} (hi : i.wellFormed = true) (he : encode i = packNNN g.toNat nnn) :
    decodeWord (g ++ nnn) = .ok i :=
  decodeWord_of_encode hi (he.trans (append_eq_packNNN g nnn).symm)

theorem decodeWord_append_XNN {x : RegIx} {nn : Byte} (hi : i.wellFormed = true)
    (he : encode i = packXNN g.toNat x nn) : decodeWord (g ++ Machine.nibble x ++ nn) = .ok i :=
  decodeWord_of_encode hi (he.trans (append_eq_packXNN g x nn).symm)

theorem decodeWord_append_XYN {x y : RegIx} {n : BitVec 4} (hi : i.wellFormed = true)
    (he : encode i = packXYN g.toNat x y n.toFin) :
    decodeWord (g ++ Machine.nibble x ++ Machine.nibble y ++ n) = .ok i :=
  decodeWord_of_encode hi (he.trans (append_eq_packXYN g x y n).symm)

end Rows

/-- Settles O4: each row's bits are the packing that encodes its instruction, which decodes to itself. -/
theorem everyRowOfTheTableDecodes : Obligations.EveryRowOfTheTableDecodes := by
  unfold Obligations.EveryRowOfTheTableDecodes
  refine ⟨decodeWord_encode (i := .cls) rfl, decodeWord_encode (i := .ret) rfl, fun nnn => ⟨fun hcls hret => ?_, ?_⟩,
    fun x nn => ?_, fun x y => ?_, fun x y n => ?_, fun x => ?_⟩
  · exact decodeWord_append_NNN (isSysTarget_iff.2 ⟨hcls, hret⟩) rfl
  · and_intros <;> exact decodeWord_append_NNN rfl rfl
  · and_intros <;> exact decodeWord_append_XNN rfl rfl
  · and_intros <;> exact decodeWord_append_XYN rfl rfl
  · exact decodeWord_append_XYN rfl rfl
  · and_intros <;> exact decodeWord_append_XNN rfl rfl

/-! ## The words no row matches (30_encoding.md R124) -/

theorem decodeGroup8_rejects_iff (w : Word) : decodeGroup8 w = .error (.unimplemented w) ↔
    w.extractLsb 3 0 ∈ [0x8#4, 0x9#4, 0xA#4, 0xB#4, 0xC#4, 0xD#4, 0xF#4] := by
  have hlt := (nField w).isLt
  simp only [List.mem_cons, List.not_mem_nil, or_false, ← BitVec.toNat_inj, toNat_extract_n]
  unfold decodeGroup8
  split
  case h_10 => simp only [imp_false] at *; simp only [true_iff, BitVec.reduceToNat]; omega
  all_goals simp [*]

theorem decodeGroupE_rejects_iff (w : Word) : decodeGroupE w = .error (.unimplemented w) ↔
    w.extractLsb 7 0 ∉ [0x9E#8, 0xA1#8] := by
  rw [extract_nn]
  simp only [List.mem_cons, List.not_mem_nil, or_false, ← BitVec.toNat_inj]
  unfold decodeGroupE
  split <;> simp_all

theorem decodeGroupF_rejects_iff (w : Word) : decodeGroupF w = .error (.unimplemented w) ↔
    w.extractLsb 7 0 ∉ [0x07#8, 0x0A#8, 0x15#8, 0x18#8, 0x1E#8, 0x29#8, 0x33#8, 0x55#8, 0x65#8] := by
  rw [extract_nn]
  simp only [List.mem_cons, List.not_mem_nil, or_false, ← BitVec.toNat_inj]
  unfold decodeGroupF
  split <;> simp_all

theorem extract_group_eq_iff (w : Word) (g : BitVec 4) : w.extractLsb 15 12 = g ↔ groupField w = g.toNat := by
  rw [← toNat_extract_group, BitVec.toNat_inj]

theorem extract_n_eq_zero_iff (w : Word) : w.extractLsb 3 0 = 0x0 ↔ nField w = 0 := by
  rw [← BitVec.toNat_inj, toNat_extract_n, Fin.ext_iff]; rfl

theorem decodeWord_total (w : Word) : decodeWord w = .error (.unimplemented w) ∨ ∃ i, decodeWord w = .ok i := by
  cases h : decodeWord w with
  | error e => exact .inl (by rw [decodeWord_error h])
  | ok i => exact .inr ⟨i, rfl⟩

/-- Only groups 5, 8, 9, E and F hold words that no row matches. -/
theorem decodeWord_rejects_iff (w : Word) : decodeWord w = .error (.unimplemented w) ↔
    (groupField w = 0x5 ∧ nField w ≠ 0) ∨ (groupField w = 0x8 ∧ decodeGroup8 w = .error (.unimplemented w)) ∨
      (groupField w = 0x9 ∧ nField w ≠ 0) ∨ (groupField w = 0xE ∧ decodeGroupE w = .error (.unimplemented w)) ∨
      (groupField w = 0xF ∧ decodeGroupF w = .error (.unimplemented w)) := by
  have hlt : groupField w < 16 := by
    have := w.isLt
    rw [groupField]; omega
  unfold decodeWord
  split
  case h_17 => simp only [imp_false] at *; omega
  all_goals simp [*]

/-- Settles O5: the illegal words by group, their fields read as bit ranges. -/
theorem illegalWordsAreExactlyThose : Obligations.IllegalWordsAreExactlyThose := by
  unfold Obligations.IllegalWordsAreExactlyThose
  refine ⟨fun w => ?_, decodeWord_total⟩
  simp only [extract_group_eq_iff, ne_eq, extract_n_eq_zero_iff, ← decodeGroup8_rejects_iff, ← decodeGroupE_rejects_iff,
    ← decodeGroupF_rejects_iff]
  exact decodeWord_rejects_iff w

/-- Settles O1: each word is evaluated. -/
theorem decodeReadsTheSpecsWords : Obligations.DecodeReadsTheSpecsWords := by
  unfold Obligations.DecodeReadsTheSpecsWords
  decide

end Sys2Proof
end

section
/-! The instruction cycle (30_encoding.md R130): a running core always has a step, and what it answers. -/

namespace Sys2Proof.Machine

theorem fetch_of_high_error {s : State} {f : Fault} (hhi : readByte s s.pc.toNat = .error f) : fetch s = .error f := by
  simp only [fetch, hhi]

theorem fetch_of_low_error {s : State} {hi : Byte} {f : Fault} (hhi : readByte s s.pc.toNat = .ok hi)
    (hlo : readByte s (s.pc.toNat + 1) = .error f) : fetch s = .error f := by
  simp only [fetch, hhi, hlo]

theorem step_of_exec {s t : State} {i : Instr} (hrun : s.status = .running) (hi : nextInstr s = some i)
    (ht : exec i s = .next t) : step s = .next (if t.status = .running then decayTimers t else t) := by
  rw [step_of_nextInstr hrun hi, ht, endStep]
  split <;> rfl

/-- Each stage of the cycle ends the step with a fault or hands on to the next. -/
theorem step_of_running {s : State} (hrun : s.status = .running) : ∃ t, step s = .next t := by
  cases hf : fetch s with
  | error f => exact ⟨_, step_of_fetch_error hrun hf⟩
  | ok w =>
    cases hd : decodeWord w with
    | error e => exact ⟨_, step_of_decode_error hrun hf hd⟩
    | ok i =>
      obtain ⟨t, ht, -⟩ := exec_effect i s
      exact ⟨_, step_of_exec hrun (nextInstr_of_fetch hf hd) ht⟩

/-- Settles O11: every instruction has an effect, a next state, and so has every stage of a step. -/
theorem everyInstructionAnswersANextState : Obligations.EveryInstructionAnswersANextState := by
  unfold Obligations.EveryInstructionAnswersANextState
  refine ⟨fun i s => ?_, fun s => step_of_running⟩
  obtain ⟨t, ht, -⟩ := exec_effect i s
  exact ⟨t, ht⟩

/-- Settles O6: the stages of the cycle in their order, the timers decaying unless the instruction faulted. -/
theorem stepRunsTheDecodedInstruction : Obligations.StepRunsTheDecodedInstruction := by
  unfold Obligations.StepRunsTheDecodedInstruction
  intro s hrun
  refine ⟨fun f hhi => step_of_fetch_error hrun (fetch_of_high_error hhi),
    fun hi f hhi hlo => step_of_fetch_error hrun (fetch_of_low_error hhi hlo), fun hi lo hhi hlo => ?_⟩
  have hfetch : fetch s = .ok (hi ++ lo) := by rw [fetch_of_reads hhi hlo, wordOfBytes_eq_append]
  refine ⟨fun e hd => step_of_decode_error hrun hfetch hd, fun i hd t ht => ?_⟩
  have hstep := step_of_exec hrun (nextInstr_of_fetch hfetch hd) ht
  refine ⟨fun hgoes => ⟨decayTimers t, ?_, rfl, toNat_decayTimer t.dt, toNat_decayTimer t.st⟩, fun f hfault => ?_⟩
  · rw [hstep, if_pos hgoes]
  · rw [hstep, if_neg (by simp [hfault])]

end Sys2Proof.Machine
end

section
/-! Control flow (40_control_flow.md): jumps, the call stack and the skips. -/

namespace Sys2Proof.Machine

/-! ## Jumps -/

/-- BNNN's sum fits 16 bits: at most 0xFFF + 0xFF (40_control_flow.md R158). -/
theorem toNat_zextAddr_add_setWidth (nnn : Addr) (b : Byte) :
    (zextAddr nnn + b.setWidth 16).toNat = b.toNat + nnn.toNat := by
  have hn := nnn.isLt
  have hb := b.isLt
  simp only [BitVec.toNat_add, toNat_zextAddr, BitVec.toNat_setWidth]
  omega

/-- Settles O16: each jump answers `setPc` of its target, whose value is the target as a number. -/
theorem jumpsWriteTheTarget : Obligations.JumpsWriteTheTarget := by
  unfold Obligations.JumpsWriteTheTarget
  intro nnn s
  exact ⟨⟨_, rfl, toNat_zextAddr nnn, .of_setPc s _⟩, ⟨_, rfl, toNat_zextAddr nnn, .of_setPc s _⟩,
    ⟨_, rfl, toNat_zextAddr_add_setWidth nnn _, .of_setPc s _⟩⟩

/-! ## The call stack -/

theorem StackPointer.bytes_lt_iff (sp : StackPointer) : sp.bytes < 48 ↔ sp.entries.val < 24 := by
  rw [StackPointer.bytes]; omega

theorem StackPointer.bytes_eq_full_iff (sp : StackPointer) : sp.bytes = 48 ↔ sp.entries.val = 24 := by
  rw [StackPointer.bytes]; omega

theorem StackPointer.bytes_eq_zero_iff (sp : StackPointer) : sp.bytes = 0 ↔ sp.entries.val = 0 := by
  rw [StackPointer.bytes]; omega

theorem StackPointer.exists_entries_eq_succ {sp : StackPointer} (h : 0 < sp.bytes) : ∃ k < 24, sp.entries.val = k + 1 := by
  have := sp.entries.isLt
  rw [StackPointer.bytes] at h
  exact ⟨sp.entries.val - 1, by omega, by omega⟩

/-- `exec_ret_of_pos` with the popped entry named by its index. -/
theorem exec_ret_of_succ {s : State} {k : Nat} (hk : k < 24) (hsp : s.sp.entries.val = k + 1) :
    exec .ret s = .next { s with pc := s.stack[k] + 2, sp := ⟨⟨k, by omega⟩⟩ } := by
  rw [exec_ret_of_pos (by omega)]
  simp only [hsp, Nat.add_sub_cancel]

/-- Settles O17: SP counted in entries, a call pushes below 24 and faults at 24. -/
theorem callPushesItsAddress : Obligations.CallPushesItsAddress := by
  unfold Obligations.CallPushesItsAddress
  intro nnn s
  refine ⟨fun hroom => ⟨_, exec_call_of_lt nnn (s.sp.bytes_lt_iff.1 hroom), fun k hk => ?_, ?_, toNat_zextAddr nnn,
    .of_eq rfl⟩, fun hfull => exec_call_of_full nnn (s.sp.bytes_eq_full_iff.1 hfull)⟩
  · have hindex : s.sp.entries.val = k ↔ 2 * k = s.sp.bytes := by rw [StackPointer.bytes]; omega
    simp only [Vector.getElem_set, hindex]
  · simp only [StackPointer.bytes]; omega

/-- Settles O18: a return pops entry `k` of the `k + 1` live ones and faults when there is none. -/
theorem returnPopsTheAddress : Obligations.ReturnPopsTheAddress := by
  unfold Obligations.ReturnPopsTheAddress
  intro s
  refine ⟨fun hpos => ?_, fun hempty => exec_ret_of_zero (s.sp.bytes_eq_zero_iff.1 hempty)⟩
  obtain ⟨k, hk, hsp⟩ := StackPointer.exists_entries_eq_succ hpos
  refine ⟨_, exec_ret_of_succ hk hsp, ?_, rfl, fun j hj hjk => ?_, .of_eq rfl⟩
  · simp only [StackPointer.bytes, hsp]; omega
  · have hpopped : j = k := by simp only [StackPointer.bytes] at hjk; omega
    subst hpopped; rfl

/-- Settles O19: the entry the return pops is the one the call has set. -/
theorem returnComesBackAfterTheCall : Obligations.ReturnComesBackAfterTheCall := by
  unfold Obligations.ReturnComesBackAfterTheCall
  rintro nnn s u hroom ⟨t, ht, hsp, hstack⟩
  have hlt := s.sp.bytes_lt_iff.1 hroom
  cases (exec_call_of_lt nnn hlt).symm.trans ht
  refine ⟨_, exec_ret_of_succ hlt (by rw [hsp]), ?_, rfl⟩
  simp only [hstack, Vector.getElem_set_self]

/-! ## Skips -/

/-- Everything an instruction that answers a skip does, its condition as a proposition. -/
theorem next_pc_of_skipIf {i : Instr} {s : State} {c : Bool} {P : Prop} [Decidable P]
    (h : exec i s = .next (skipIf c s)) (hc : c = true ↔ P) :
    ∃ t, exec i s = .next t ∧ t.pc = (if P then s.pc + 4 else s.pc + 2) ∧ OnlyPc s t :=
  ⟨_, h, by simp only [skipIf_pc, hc], .of_skipIf c s⟩

/-- Settles O20: the two conditions are the Boolean tests of the equality. -/
theorem skipsOnAByte : Obligations.SkipsOnAByte := by
  unfold Obligations.SkipsOnAByte
  exact fun x nn s => ⟨next_pc_of_skipIf rfl beq_iff_eq, next_pc_of_skipIf rfl bne_iff_ne⟩

/-- Settles O21: the two conditions are the Boolean tests of the equality. -/
theorem skipsOnARegister : Obligations.SkipsOnARegister := by
  unfold Obligations.SkipsOnARegister
  exact fun x y s => ⟨next_pc_of_skipIf rfl beq_iff_eq, next_pc_of_skipIf rfl bne_iff_ne⟩

end Sys2Proof.Machine
end

section
/-! Register loads, arithmetic, logic and the random byte (41_alu.md): each instruction writes a result, and some a flag
before it, then advances PC. -/

namespace Sys2Proof.Machine

/-! ## One register written -/

/-- Settles O22: each of the three is one register write of the value stated. -/
theorem loadsAndImmediateAdd : Obligations.LoadsAndImmediateAdd := by
  unfold Obligations.LoadsAndImmediateAdd
  intro x y nn s
  refine ⟨⟨_, rfl, readReg_writeReg_self s x nn, rfl, .of_writeReg s x _⟩, ⟨_, rfl, ?_, rfl, .of_writeReg s x _⟩,
    ⟨_, rfl, readReg_writeReg_self s x _, rfl, .of_writeReg s x _⟩⟩
  rw [readReg_advance, readReg_writeReg_self, BitVec.toNat_ofNat]

/-- Everything an instruction does that writes to X the combination of VX and VY by a Boolean function of their bits. -/
theorem next_bits_of_writeReg {i : Instr} {s : State} {x y : RegIx} {result : Byte} {f : Bool → Bool → Bool}
    (h : exec i s = .next (advance (writeReg s x result)))
    (hbit : ∀ k, result.getLsbD k = f ((readReg s x).getLsbD k) ((readReg s y).getLsbD k)) :
    ∃ t, exec i s = .next t ∧
      (∀ k < 8, (readReg t x).getLsbD k = f ((readReg s x).getLsbD k) ((readReg s y).getLsbD k)) ∧
      t.pc = s.pc + 2 ∧ OnlyRegs [x] s t := by
  refine ⟨_, h, fun k _ => ?_, rfl, .of_writeReg s x result⟩
  rw [readReg_advance, readReg_writeReg_self, hbit]

/-- Settles O23: a bit of the word operation is the Boolean operation on the bits. -/
theorem bitwiseOperations : Obligations.BitwiseOperations := by
  unfold Obligations.BitwiseOperations
  exact fun x y s => ⟨next_bits_of_writeReg rfl fun _ => BitVec.getLsbD_or,
    next_bits_of_writeReg rfl fun _ => BitVec.getLsbD_and, next_bits_of_writeReg rfl fun _ => BitVec.getLsbD_xor⟩

theorem and_mask_and_not (b mask : Byte) : b &&& mask &&& ~~~mask = 0 := by
  simp [BitVec.and_assoc]

/-- Settles O27: the draw moves the draw counter alone, so all else is the frame of the register write after it. -/
theorem randomByteIsMasked : Obligations.RandomByteIsMasked := by
  unfold Obligations.RandomByteIsMasked
  intro x nn s
  obtain ⟨hregs, hi, hstack, htimers, hdisplay, ⟨hkeys, hstatus, hdraws⟩, hmem⟩ :=
    OnlyRegs.of_writeReg (drawRandom s).2 x ((drawRandom s).1 &&& nn)
  refine ⟨_, rfl, readReg_writeReg_self _ x _, ?_, rfl, hdraws, hkeys, hstatus, hregs, hi, hstack, htimers, hdisplay,
    hmem⟩
  rw [readReg_advance, readReg_writeReg_self, and_mask_and_not]

/-! ## VF written, then a register -/

/-- Everything an instruction does that writes a flag and then a result: for X = F the result is what stays (41_alu.md
R198). -/
theorem next_of_writeFlagThen {i : Instr} {s : State} {x : RegIx} {flag result : Byte}
    (h : exec i s = .next (advance (writeFlagThen s flag x result))) :
    ∃ t, exec i s = .next t ∧ readReg t x = result ∧ (x ≠ VF → readReg t VF = flag) ∧ t.pc = s.pc + 2 ∧
      OnlyRegs [x, VF] s t := by
  refine ⟨_, h, ?_, fun hx => ?_, rfl, .of_writeFlag s x flag result⟩
  · rw [readReg_advance, readReg_writeFlagThen, if_pos rfl]
  · rw [readReg_advance, readReg_writeFlagThen, if_neg hx.symm, if_pos rfl]

/-- Settles O24: the result is the sum as a byte, the flag the bound on the exact sum. -/
theorem addSetsTheCarry : Obligations.AddSetsTheCarry := by
  unfold Obligations.AddSetsTheCarry
  intro x y s
  obtain ⟨t, ht, hresult, hflag, hpc, hframe⟩ := next_of_writeFlagThen (i := .addReg x y) (s := s) rfl
  refine ⟨t, ht, ?_, fun hx => (hflag hx).trans (carryFlag_eq _ _), hpc, hframe⟩
  rw [hresult, BitVec.toNat_ofNat]

/-- Everything a subtraction of `b` from `a` does (41_alu.md R207, R209). -/
theorem next_of_writeDifference {i : Instr} {s : State} {x : RegIx} {a b : Byte}
    (h : exec i s = .next
      (advance (writeFlagThen s (borrowFlag a b) x (BitVec.ofInt 8 ((a.toNat : Int) - b.toNat))))) :
    ∃ t, exec i s = .next t ∧ (readReg t x).toNat = (a.toNat + 256 - b.toNat) % 256 ∧
      (x ≠ VF → readReg t VF = if a.toNat < b.toNat then 1 else 0) ∧ t.pc = s.pc + 2 ∧ OnlyRegs [x, VF] s t := by
  obtain ⟨t, ht, hresult, hflag, hpc, hframe⟩ := next_of_writeFlagThen h
  refine ⟨t, ht, ?_, fun hx => (hflag hx).trans (borrowFlag_eq a b), hpc, hframe⟩
  rw [hresult, toNat_ofInt_sub]

/-- Settles O25: 8XY5 and 8XY7 are one subtraction with its operands exchanged. -/
theorem subtractSetsTheBorrow : Obligations.SubtractSetsTheBorrow := by
  unfold Obligations.SubtractSetsTheBorrow
  exact fun x y s => ⟨next_of_writeDifference rfl, next_of_writeDifference rfl⟩

/-! ## Shifts -/

/-- Everything a shift does: it reads VX after the flag is written, so for X = F it is the flag that is shifted
(41_alu.md R198). -/
theorem next_of_writeShift {i : Instr} {s : State} {x : RegIx} {flag : Byte} {shift : Byte → Byte}
    (h : exec i s = .next (advance (writeFlagThen s flag x (shift (readReg (writeReg s VF flag) x))))) :
    ∃ t, exec i s = .next t ∧ t.pc = s.pc + 2 ∧ OnlyRegs [x, VF] s t ∧
      (x ≠ VF → readReg t x = shift (readReg s x) ∧ readReg t VF = flag) ∧
      (x = VF → readReg t VF = shift flag) := by
  obtain ⟨t, ht, hresult, hflag, hpc, hframe⟩ := next_of_writeFlagThen h
  refine ⟨t, ht, hpc, hframe, fun hx => ⟨?_, hflag hx⟩, fun hx => ?_⟩
  · rw [hresult, readReg_writeReg_ne s flag hx]
  · rw [← hx, hresult, hx, readReg_writeReg_self]

theorem shrFlag_ushiftRight_one (b : Byte) : shrFlag b >>> 1 = 0 := by revert b; decide

theorem shlFlag_shiftLeft_one (b : Byte) : shlFlag b <<< 1 = if 128 ≤ b.toNat then 2 else 0 := by revert b; decide

/-- Settles O26: the shift of VX as a number when X is not F, of the flag when it is. -/
theorem shiftsMoveOneBit : Obligations.ShiftsMoveOneBit := by
  unfold Obligations.ShiftsMoveOneBit
  intro x y s
  constructor
  · obtain ⟨t, ht, hpc, hframe, hother, hVF⟩ :=
      next_of_writeShift (i := .shr x y) (s := s) (shift := (· >>> 1)) rfl
    refine ⟨t, ht, hpc, hframe, fun hx => ?_, fun hx => (hVF hx).trans (shrFlag_ushiftRight_one _)⟩
    obtain ⟨hresult, hflag⟩ := hother hx
    rw [hresult, hflag]
    exact ⟨BitVec.toNat_ushiftRight .., toNat_shrFlag _⟩
  · obtain ⟨t, ht, hpc, hframe, hother, hVF⟩ :=
      next_of_writeShift (i := .shl x y) (s := s) (shift := (· <<< 1)) rfl
    refine ⟨t, ht, hpc, hframe, fun hx => ?_, fun hx => (hVF hx).trans (shlFlag_shiftLeft_one _)⟩
    obtain ⟨hresult, hflag⟩ := hother hx
    rw [hresult, hflag, BitVec.toNat_shiftLeft, Nat.shiftLeft_eq]
    exact ⟨rfl, toNat_shlFlag _⟩

end Sys2Proof.Machine
end

section
/-! The index register and memory transfer (42_index_memory.md, FX29 of 43_display.md): what I receives, the bytes a run of
stores leaves, the registers a run of loads leaves, and what of each stays when it stops at a rejected address. -/

namespace Sys2Proof.Machine

/-! ## The index register -/

/-- Everything an instruction does that writes I and advances PC. -/
theorem next_of_writeIndex {i : Instr} {s : State} {w : Word} {n : Nat}
    (h : exec i s = .next (advance { s with i := w })) (hw : w.toNat = n) :
    ∃ t, exec i s = .next t ∧ t.i.toNat = n ∧ t.pc = s.pc + 2 ∧ OnlyIndex s t :=
  ⟨_, h, hw, rfl, .of_eq rfl⟩

/-- Settles O30: both values fit 16 bits, five times a byte being at most 1275. -/
theorem indexLoads : Obligations.IndexLoads := by
  unfold Obligations.IndexLoads
  intro nnn x s
  refine ⟨next_of_writeIndex rfl (toNat_zextAddr nnn), next_of_writeIndex rfl ?_⟩
  have hbyte := (readReg s x).isLt
  rw [BitVec.toNat_ofNat, Nat.mod_eq_of_lt (by omega)]

/-- Settles O31: the two branches of FX1E, of which the first writes a sum that fits. -/
theorem indexAddFaultsAbove16Bits : Obligations.IndexAddFaultsAbove16Bits := by
  unfold Obligations.IndexAddFaultsAbove16Bits
  intro x s
  refine ⟨fun hfits => next_of_writeIndex (exec_addI_of_le x hfits) ?_, exec_addI_of_gt x⟩
  rw [BitVec.toNat_ofNat, Nat.mod_eq_of_lt (by omega)]

/-! ## Stores -/

/-- `storeBytes_ok` as the accesses see it: the bytes stored read back, every other address reads as before. -/
theorem storeBytes_reads {a : Nat} {bs : List Byte} {s : State} (hm : s.mem.wf)
    (h : bs ≠ [] → 0x200 ≤ a ∧ a + bs.length ≤ 0xEA0) :
    ∃ m, storeBytes a bs s = ({ s with mem := m }, none) ∧
      (∀ (k : Nat) (hk : k < bs.length), readByte { s with mem := m } (a + k) = .ok bs[k]) ∧
      SameMemBut a bs.length s { s with mem := m } := by
  obtain ⟨m, hstore, -, -, hpeek⟩ := storeBytes_ok a bs s hm h
  refine ⟨m, hstore, fun k hk => ?_, fun d hd => readByte_congr_peek ?_⟩
  · have hzone := h (List.ne_nil_of_length_pos (by omega))
    rw [readByte_ok (by omega), hpeek, if_pos (by omega), Nat.add_sub_cancel_left, List.getElem?_eq_getElem hk,
      Option.getD_some]
  · obtain hbelow | habove := hd
    · rw [hpeek, if_neg (by omega)]
    · rw [hpeek, if_pos (by omega), List.getElem?_eq_none (by omega), Option.getD_none]

/-- `storeBytes_fault` as the accesses see it: the bytes before the rejected address read back, every other address reads as
before. -/
theorem storeBytes_reads_of_fault {a n : Nat} {bs : List Byte} {s : State} (hm : s.mem.wf) (hn : n < bs.length)
    (hbefore : ∀ k, k < n → 0x200 ≤ a + k ∧ a + k ≤ 0xE9F) (hat : ¬(0x200 ≤ a + n ∧ a + n ≤ 0xE9F)) :
    ∃ m, storeBytes a bs s = ({ s with mem := m }, some (.addressOutOfRange (a + n) .write)) ∧
      (∀ (k : Nat) (hk : k < bs.length), k < n → readByte { s with mem := m } (a + k) = .ok bs[k]) ∧
      SameMemBut a n s { s with mem := m } := by
  have hlength : (bs.take n).length = n := List.length_take_of_le hn.le
  have hzone : bs.take n ≠ [] → 0x200 ≤ a ∧ a + (bs.take n).length ≤ 0xEA0 := fun hne => by
    have hpos : 0 < n := hlength ▸ List.length_pos_of_ne_nil hne
    have hfirst := hbefore 0 hpos
    have hlast := hbefore (n - 1) (by omega)
    omega
  obtain ⟨m, hstore, hreads, hframe⟩ := storeBytes_reads hm hzone
  refine ⟨m, by rw [storeBytes_fault a bs s n hn hbefore hat, hstore], fun k hk hkn => ?_, by rwa [hlength] at hframe⟩
  rw [hreads k (by omega), List.getElem_take]

/-- Settles O32: FX33 and FX55 are one run of stores, here with no address rejected. -/
theorem storesWriteTheirBytes : Obligations.StoresWriteTheirBytes := by
  unfold Obligations.StoresWriteTheirBytes
  intro i s hi hm hlo hhi
  obtain ⟨m, hstore, hreads, hframe⟩ := storeBytes_reads hm fun _ => ⟨hlo, hhi⟩
  exact ⟨advance { s with mem := m }, by rw [exec_of_storesToMemory hi, hstore]; rfl, hreads, .of_eq hframe rfl, rfl⟩

/-- Settles O33: the run of stores stops at its first rejected address, and the fault changes `status` alone. -/
theorem storeFaultKeepsTheBytesBefore : Obligations.StoreFaultKeepsTheBytesBefore := by
  unfold Obligations.StoreFaultKeepsTheBytesBefore
  intro i s n hi hm hn hbefore hat
  obtain ⟨m, hstore, hreads, hframe⟩ := storeBytes_reads_of_fault hm hn hbefore hat
  have hexec : exec i s =
      .next { s with mem := m, status := .faulted (.addressOutOfRange (indexAddr s + n) .write) } := by
    rw [exec_of_storesToMemory hi, hstore]; rfl
  exact ⟨_, hexec, rfl, hreads, hframe, rfl, fun _ _ => rfl, rfl, ⟨rfl, rfl⟩, ⟨rfl, rfl⟩, ⟨rfl, rfl⟩, rfl, rfl⟩

/-! ## Loads -/

/-- The first `n` registers of a transfer are those numbered below `n`. -/
theorem mem_take_regsUpTo {x : RegIx} {n : Nat} (hn : n ≤ x.val + 1) (r : RegIx) :
    r ∈ (regsUpTo x).take n ↔ r.val < n := by
  rw [List.mem_take_iff_getElem]
  constructor
  · rintro ⟨k, hk, rfl⟩
    rw [getElem_regsUpTo]
    omega
  · exact fun hr => ⟨r.val, by rw [length_regsUpTo]; omega, Fin.ext (getElem_regsUpTo x r.val _)⟩

/-- The first `n` loads of FX65, none of them rejected: the registers below `n` hold the bytes read, the others are as
before. -/
theorem loadRegsFrom_take_regsUpTo {x : RegIx} {a n : Nat} (s : State) (hn : n ≤ x.val + 1) (h : a + n ≤ 0xEA0) :
    ∃ v, loadRegsFrom a ((regsUpTo x).take n) s = ({ s with v := v }, none) ∧
      (∀ k : RegIx, k.val < n → readByte s (a + k.val) = .ok (readReg { s with v := v } k)) ∧
      (∀ k : RegIx, n ≤ k.val → readReg { s with v := v } k = readReg s k) := by
  have hlength : ((regsUpTo x).take n).length = n := List.length_take_of_le (by rwa [length_regsUpTo])
  obtain ⟨v, hload, hloaded, hkept⟩ :=
    loadRegsFrom_ok a _ s ((nodup_regsUpTo x).sublist (List.take_sublist n _)) (by rwa [hlength])
  refine ⟨v, hload, fun k hk => ?_, fun k hk => hkept k (by rw [mem_take_regsUpTo hn]; omega)⟩
  have hreg : ((regsUpTo x).take n)[k.val] = k := by
    rw [List.getElem_take]
    exact Fin.ext (getElem_regsUpTo x k.val _)
  rw [readByte_ok (by omega), ← hloaded k.val (by omega), hreg]

/-- A first address that rejects the read: no register is loaded. -/
theorem loadRegsFrom_of_rejected {a : Nat} {xs : List RegIx} (s : State) (hxs : xs ≠ []) (h : 0xE9F < a) :
    loadRegsFrom a xs s = (s, some (.addressOutOfRange a .read)) := by
  cases xs with
  | nil => exact absurd rfl hxs
  | cons x xs => rw [loadRegsFrom, readByte_error h]

/-- FX65 that reaches a rejected address: the first one is `max a 0xEA0`, the registers before it are loaded. -/
theorem loadRegsFrom_regsUpTo_of_fault {x : RegIx} {a : Nat} (s : State) (h : 0xE9F < a + x.val) :
    ∃ v, loadRegsFrom a (regsUpTo x) s = ({ s with v := v }, some (.addressOutOfRange (max a 0xEA0) .read)) ∧
      (∀ k : RegIx, a + k.val ≤ 0xE9F → readByte s (a + k.val) = .ok (readReg { s with v := v } k)) ∧
      (∀ k : RegIx, 0xE9F < a + k.val → readReg { s with v := v } k = readReg s k) := by
  obtain hsome | hnone : a ≤ 0xEA0 ∨ 0xEA0 < a := le_or_gt a 0xEA0
  · obtain ⟨n, hn⟩ : ∃ n, 0xEA0 = a + n := Nat.exists_eq_add_of_le hsome
    obtain ⟨v, hload, hloaded, hkept⟩ := loadRegsFrom_take_regsUpTo (x := x) (n := n) s (by omega) hn.ge
    refine ⟨v, ?_, fun k hk => hloaded k (by omega), fun k hk => hkept k (by omega)⟩
    rw [loadRegsFrom_fault a _ s n (by rw [length_regsUpTo]; omega) hn.ge (by omega), hload, max_eq_right hsome, hn]
  · have hregs : regsUpTo x ≠ [] := List.ne_nil_of_length_pos (by rw [length_regsUpTo]; omega)
    refine ⟨s.v, ?_, fun k hk => by omega, fun _ _ => rfl⟩
    rw [loadRegsFrom_of_rejected s hregs (by omega), max_eq_left hnone.le]

/-- Settles O34: FX65 with no address rejected is all of its loads. -/
theorem loadFillsTheRegisters : Obligations.LoadFillsTheRegisters := by
  unfold Obligations.LoadFillsTheRegisters
  intro x s hreadable
  obtain ⟨v, hload, hloaded, hkept⟩ := loadRegsFrom_take_regsUpTo s (le_refl (x.val + 1)) (a := indexAddr s) (by omega)
  rw [List.take_of_length_le (length_regsUpTo x).le] at hload
  refine ⟨advance { s with v := v }, by rw [exec, execLdRegs, hload]; rfl, fun k hk => hloaded k (Nat.lt_succ_of_le hk),
    .of_eq (fun r hr => hkept r ?_) rfl, rfl⟩
  rw [mem_regsUpTo] at hr
  omega

/-- Settles O35: the loads stop at the first rejected address, and the fault changes `status` alone. -/
theorem loadFaultKeepsTheRegistersBefore : Obligations.LoadFaultKeepsTheRegistersBefore := by
  unfold Obligations.LoadFaultKeepsTheRegistersBefore
  intro x s hrejected
  obtain ⟨v, hload, hloaded, hkept⟩ := loadRegsFrom_regsUpTo_of_fault s hrejected
  have hexec : exec (.ldRegs x) s =
      .next { s with v := v, status := .faulted (.addressOutOfRange (max (indexAddr s) 0xEA0) .read) } := by
    rw [exec, execLdRegs, hload]; rfl
  exact ⟨_, hexec, rfl, hloaded, hkept, rfl, rfl, ⟨rfl, rfl⟩, ⟨rfl, rfl⟩, ⟨rfl, rfl⟩, rfl, rfl, fun _ => rfl⟩

end Sys2Proof.Machine
end

section
/-! The display (00E0 and DXYN of 43_display.md): the screen and VF a draw leaves, a draw made twice, and the draw that
faults. -/

namespace Sys2Proof.Machine

/-- Settles O40: the framebuffer written is the blank one. -/
theorem clearScreenClearsEveryPixel : Obligations.ClearScreenClearsEveryPixel := by
  unfold Obligations.ClearScreenClearsEveryPixel
  exact fun s => ⟨_, rfl, fun x _ y _ => pixel_blank x y, rfl, rfl, .of_eq (fun _ _ => rfl) rfl⟩

/-- Settles O42: the rows are read before anything changes, so the first rejected read leaves `s` but for `status`. -/
theorem drawFaultChangesNothing : Obligations.DrawFaultChangesNothing := by
  unfold Obligations.DrawFaultChangesNothing
  exact fun x y n s hn hrejected => exec_drw_of_fault x y hn hrejected

/-! ## A draw -/

theorem collisionFlag_eq_one_iff (hit : Bool) : collisionFlag hit = 1 ↔ hit = true := by revert hit; decide

theorem collisionFlag_eq_zero_iff (hit : Bool) : collisionFlag hit = 0 ↔ hit = false := by revert hit; decide

/-- Reads depend on memory only. -/
theorem readBytes_congr {s t : State} (h : t.mem = s.mem) (a n : Nat) : readBytes t a n = readBytes s a n := by
  induction n generalizing a with
  | zero => rfl
  | succ n ih => rw [readBytes, readBytes, readByte_congr h, ih]

/-- The state DXYN leaves once it has read `rows`. -/
def drawn (s : State) (x y : RegIx) (rows : List Byte) : State :=
  let b := blitRows (readReg s x).toNat (readReg s y).toNat rows ⟨s.fb, false⟩
  advance (writeReg { s with fb := b.fb, dirty := true } VF (collisionFlag b.hit))

section Drawn
variable {s : State} {x y : RegIx} {rows : List Byte}

theorem exec_drw_eq_drawn {n : RowCount} (h : readBytes s (indexAddr s) n.val = .ok rows) :
    exec (.drw x y n) s = .next (drawn s x y rows) := exec_drw_of_rows x y h

theorem readReg_drawn_ne {r : RegIx} (hr : r ≠ VF) : readReg (drawn s x y rows) r = readReg s r :=
  readReg_writeReg_ne _ _ hr

theorem indexAddr_drawn : indexAddr (drawn s x y rows) = indexAddr s := rfl

theorem drawn_mem : (drawn s x y rows).mem = s.mem := rfl

theorem pixel_drawn {px py : Nat} (hx : px < 64) (hy : py < 32) : pixel (drawn s x y rows).fb px py =
    (pixel s.fb px py ^^ spriteBit rows (readReg s x).toNat (readReg s y).toNat px py) :=
  pixel_blitRows _ _ _ _ hx hy

theorem readReg_drawn_VF_eq_one_iff : readReg (drawn s x y rows) VF = 1 ↔
    ∃ px < 64, ∃ py < 32, pixel s.fb px py = true ∧
      spriteBit rows (readReg s x).toNat (readReg s y).toNat px py = true := by
  rw [drawn, readReg_advance, readReg_writeReg_self, collisionFlag_eq_one_iff, hit_blitRows]
  simp only [Bool.false_eq_true, false_or]

theorem readReg_drawn_VF_eq_zero_iff : readReg (drawn s x y rows) VF = 0 ↔
    ∀ px < 64, ∀ py < 32, pixel s.fb px py = true →
      spriteBit rows (readReg s x).toNat (readReg s y).toNat px py = false := by
  rw [drawn, readReg_advance, readReg_writeReg_self, collisionFlag_eq_zero_iff, ← Bool.not_eq_true, hit_blitRows]
  simp

theorem OnlyDisplay.of_drawn : OnlyDisplay [VF] s (drawn s x y rows) :=
  .of_eq (fun _ hr => readReg_drawn_ne (by simpa using hr)) rfl

end Drawn

/-- Settles O41: the rows read are the sprite, and the draw of them is its pixels and its collision. -/
theorem drawXorsTheSprite : Obligations.DrawXorsTheSprite := by
  unfold Obligations.DrawXorsTheSprite
  intro x y n s hreadable
  obtain ⟨rows, hread, hlength, hrows⟩ := readBytes_rows hreadable
  exact ⟨drawn s x y rows, rows, exec_drw_eq_drawn hread, hlength, hrows, fun px hx py hy => pixel_drawn hx hy,
    readReg_drawn_VF_eq_one_iff.2, readReg_drawn_VF_eq_zero_iff.2, rfl, rfl, .of_drawn⟩

/-! ## A draw made twice -/

/-- A second draw of the same sprite, its coordinates not moved by the first, falls on the first one's pixels. -/
theorem pixel_drawn_drawn {s : State} {x y : RegIx} {rows : List Byte} (hx : x ≠ VF) (hy : y ≠ VF) {px py : Nat}
    (hpx : px < 64) (hpy : py < 32) : pixel (drawn (drawn s x y rows) x y rows).fb px py = pixel s.fb px py := by
  rw [pixel_drawn hpx hpy, pixel_drawn hpx hpy, readReg_drawn_ne hx, readReg_drawn_ne hy, Bool.xor_assoc, Bool.xor_self,
    Bool.xor_false]

/-- A pixel the exclusive or leaves set was hit by the sprite just when it was clear. -/
theorem xor_and_right_iff (p q : Bool) : (p ^^ q) = true ∧ q = true ↔ p = false ∧ (p ^^ q) = true := by
  revert p q; decide

/-- Settles O43: the second draw is the first one's sprite at the same place, so it clears just what the first one set. -/
theorem drawingTwiceRestoresTheScreen : Obligations.DrawingTwiceRestoresTheScreen := by
  unfold Obligations.DrawingTwiceRestoresTheScreen
  intro x y n s t u hx hy hreadable hfirst hsecond
  obtain ⟨rows, hread, -, -⟩ := readBytes_rows hreadable
  obtain rfl : drawn s x y rows = t := by simpa [exec_drw_eq_drawn hread] using hfirst
  have hreread : readBytes (drawn s x y rows) (indexAddr (drawn s x y rows)) n.val = .ok rows := by
    rwa [indexAddr_drawn, readBytes_congr drawn_mem]
  obtain rfl : drawn (drawn s x y rows) x y rows = u := by simpa [exec_drw_eq_drawn hreread] using hsecond
  refine ⟨frame_ext fun px hpx py hpy => pixel_drawn_drawn hx hy hpx hpy, readReg_drawn_VF_eq_one_iff.trans ?_⟩
  refine exists_congr fun px => and_congr_right fun hpx => exists_congr fun py => and_congr_right fun hpy => ?_
  rw [readReg_drawn_ne hx, readReg_drawn_ne hy, pixel_drawn hpx hpy]
  exact xor_and_right_iff _ _

end Sys2Proof.Machine
end

section
/-! The key instructions (44_input.md): the two skips by a latch flag, the wait for a key, and the core that polls in it. -/

namespace Sys2Proof.Machine

/-! ## Skips on a key -/

theorem exec_skp_of_lt {s : State} {x : RegIx} (h : (readReg s x).toNat < 16) :
    exec (.skp x) s = .next (skipIf s.keys[(readReg s x).toNat] s) := by
  rw [exec, execSkp, keyOperand_of_lt h]

theorem exec_skp_of_ge {s : State} {x : RegIx} (h : 16 ≤ (readReg s x).toNat) :
    exec (.skp x) s = .next { s with status := .faulted (.invalidKeyIndex (readReg s x).toNat) } := by
  rw [exec, execSkp, keyOperand_of_ge h]; rfl

theorem exec_sknp_of_lt {s : State} {x : RegIx} (h : (readReg s x).toNat < 16) :
    exec (.sknp x) s = .next (skipIf (!s.keys[(readReg s x).toNat]) s) := by
  rw [exec, execSknp, keyOperand_of_lt h]

theorem exec_sknp_of_ge {s : State} {x : RegIx} (h : 16 ≤ (readReg s x).toNat) :
    exec (.sknp x) s = .next { s with status := .faulted (.invalidKeyIndex (readReg s x).toNat) } := by
  rw [exec, execSknp, keyOperand_of_ge h]; rfl

/-- Settles O44: a key number below 16 makes each of the two a skip, EXA1's on the flag's negation. -/
theorem skipsOnAKey : Obligations.SkipsOnAKey := by
  unfold Obligations.SkipsOnAKey
  refine fun x s => ⟨fun hkey => ⟨next_pc_of_skipIf (exec_skp_of_lt hkey) Iff.rfl, ?_⟩,
    fun hnone => ⟨exec_skp_of_ge hnone, exec_sknp_of_ge hnone⟩⟩
  rw [← ite_not]
  exact next_pc_of_skipIf (exec_sknp_of_lt hkey) Bool.not_iff_not

/-! ## The wait for a key -/

theorem exec_ldKey_of_none (x : RegIx) {s : State} (h : firstKey s = none) : exec (.ldKey x) s = .next s := by
  rw [exec, execLdKey, h]

theorem exec_ldKey_of_some (x : RegIx) {s : State} {k : Fin 16} (h : firstKey s = some k) :
    exec (.ldKey x) s = .next (advance (writeReg s x (BitVec.ofNat 8 k.val))) := by
  rw [exec, execLdKey, h]

/-- Settles O45: the scan of the latch finds nothing, or the lowest set key, whose number fits a register. -/
theorem waitForKeyTakesTheLowest : Obligations.WaitForKeyTakesTheLowest := by
  unfold Obligations.WaitForKeyTakesTheLowest
  refine fun x s => ⟨fun hclear => exec_ldKey_of_none x (firstKey_eq_none hclear), fun k hset hlowest => ?_⟩
  refine ⟨_, exec_ldKey_of_some x (firstKey_eq_some hset hlowest), ?_, rfl, .of_writeReg s x _⟩
  rw [readReg_advance, readReg_writeReg_self, BitVec.toNat_ofNat, Nat.mod_eq_of_lt (by omega)]

/-! ## The poll -/

/-- What waiting is: a running core, an FX0A next, no key to take (10_state.md R49). -/
theorem awaitingKey_iff (s : State) : awaitingKey s = true ↔
    s.status = .running ∧ (∃ x, nextInstr s = some (.ldKey x)) ∧ firstKey s = none := by
  unfold awaitingKey
  split
  case h_1 x hrun hnext => simp [hrun, hnext]
  case h_2 hother =>
    refine iff_of_false Bool.false_ne_true ?_
    rintro ⟨hrun, ⟨x, hnext⟩, -⟩
    exact hother x hrun hnext

/-- Waiting depends on neither timer. -/
theorem awaitingKey_decayTimers (s : State) : awaitingKey (decayTimers s) = awaitingKey s := rfl

theorem step_of_awaitingKey {s : State} (h : awaitingKey s = true) : step s = .next (decayTimers s) := by
  obtain ⟨hrun, ⟨x, hnext⟩, hnone⟩ := (awaitingKey_iff s).1 h
  rw [step_of_exec hrun hnext (exec_ldKey_of_none x hnone), if_pos hrun]

/-- Settles O46: a step of a waiting core is the timer decay alone, and waiting does not read the timers. -/
theorem keyPollOnlyDecaysTheTimers : Obligations.KeyPollOnlyDecaysTheTimers := by
  unfold Obligations.KeyPollOnlyDecaysTheTimers
  exact fun s hwait => ⟨decayTimers s, step_of_awaitingKey hwait, rfl, toNat_decayTimer s.dt, toNat_decayTimer s.st,
    (awaitingKey_decayTimers s).trans hwait⟩

end Sys2Proof.Machine
end

section
/-! The timers (45_timers.md): the instructions that load them, the decay that ends a step, and a run of steps none of which
writes the timer. -/

namespace Sys2Proof.Machine

/-! ## The execute stage -/

/-- Settles O47: a register write for FX07, one timer written for FX15 and for FX18. -/
theorem timerLoads : Obligations.TimerLoads := by
  unfold Obligations.TimerLoads
  exact fun x s => ⟨⟨_, rfl, readReg_writeReg_self s x s.dt, rfl, .of_writeReg s x _⟩,
    ⟨_, rfl, rfl, rfl, rfl, .of_eq rfl⟩, ⟨_, rfl, rfl, rfl, rfl, .of_eq rfl⟩⟩

theorem dt_of_exec_ldDT {x : RegIx} {s t : State} (h : exec (.ldDT x) s = .next t) : t.dt = readReg s x := by
  cases h; rfl

theorem st_of_exec_ldST {x : RegIx} {s t : State} (h : exec (.ldST x) s = .next t) : t.st = readReg s x := by
  cases h; rfl

theorem dt_of_exec_ne {i : Instr} {s t : State} (h : exec i s = .next t) (hi : ∀ x, i ≠ .ldDT x) : t.dt = s.dt := by
  cases effect_of_exec h with
  | delayTimer x b hx => exact absurd hx (hi x)
  | _ => rfl

theorem st_of_exec_ne {i : Instr} {s t : State} (h : exec i s = .next t) (hi : ∀ x, i ≠ .ldST x) : t.st = s.st := by
  cases effect_of_exec h with
  | soundTimer x b hx => exact absurd hx (hi x)
  | _ => rfl

/-- An instruction that faults writes no timer: the two that do never fault. -/
theorem Effect.sameTimers_of_fault {i : Instr} {s t : State} (h : Effect i s t) (hrun : s.status = .running)
    (hfault : t.status ≠ .running) : SameTimers s t := by
  cases h with
  | fault f => exact ⟨rfl, rfl⟩
  | loadFault v f hregs => exact ⟨rfl, rfl⟩
  | storeFault m f hi hfont hwf => exact ⟨rfl, rfl⟩
  | _ => exact absurd hrun hfault

/-! ## The decay -/

/-- Settles O48: the decay is applied to the timers the instruction left, and to none where the step faulted. -/
theorem timersDecayAtTheEndOfEveryStep : Obligations.TimersDecayAtTheEndOfEveryStep := by
  unfold Obligations.TimersDecayAtTheEndOfEveryStep
  intro s t hrun h
  obtain ⟨-, f, rfl, -⟩ | ⟨i, hi, -, u, he, ⟨hgoes, rfl⟩ | ⟨hfault, rfl⟩⟩ := step_cases hrun h
  · exact ⟨fun hgoes => (by cases hgoes), fun _ => ⟨rfl, rfl⟩⟩
  · refine ⟨fun _ => ?_, fun hfault => absurd hgoes hfault⟩
    rw [hi, decayTimers_dt, decayTimers_st, toNat_decayTimer, toNat_decayTimer]
    constructor
    · split
      next x hx => cases hx; rw [dt_of_exec_ldDT he]
      next hne => rw [dt_of_exec_ne he fun x hx => hne x (congrArg some hx)]
    · split
      next x hx => cases hx; rw [st_of_exec_ldST he]
      next hne => rw [st_of_exec_ne he fun x hx => hne x (congrArg some hx)]
  · exact ⟨fun hgoes => absurd hgoes hfault, fun _ => (effect_of_exec he).sameTimers_of_fault hrun hfault⟩

/-- A timer that falls by 10, floor 0, in every step that neither faults nor runs an instruction of `p` falls by 10 k, floor
0, over k such steps: the floors add up to one. -/
theorem RunsWithout.decays {p : Instr → Bool} {timer : State → Byte}
    (hstep : ∀ s t, s.status = .running → step s = .next t → t.status = .running → (nextInstr s).any p = false →
      (timer t).toNat = (timer s).toNat - 10)
    {k : Nat} {s t : State} (hrun : s.status = .running) (h : RunsWithout p k s t) :
    (timer t).toNat = (timer s).toNat - 10 * k := by
  induction k generalizing s with
  | zero => cases h; rfl
  | succ k ih =>
    obtain ⟨hp, u, hu, hgoes, hrest⟩ := h
    have hfirst := hstep s u hrun hu hgoes hp
    have hlater := ih hgoes hrest
    omega

/-- Settles O49: each step of the run takes 10 from the value before it, since its instruction does not write the timer. -/
theorem timerAfterManySteps : Obligations.TimerAfterManySteps := by
  unfold Obligations.TimerAfterManySteps
  refine fun k s t hrun => ⟨RunsWithout.decays (timer := State.dt) (fun s u hrun hu hgoes hp => ?_) hrun,
    RunsWithout.decays (timer := State.st) (fun s u hrun hu hgoes hp => ?_) hrun⟩
  · obtain ⟨hdt, -⟩ := (timersDecayAtTheEndOfEveryStep s u hrun hu).1 hgoes
    rw [hdt]
    split
    next x hx => simp [hx, writesDT] at hp
    next => rfl
  · obtain ⟨-, hst⟩ := (timersDecayAtTheEndOfEveryStep s u hrun hu).1 hgoes
    rw [hst]
    split
    next x hx => simp [hx, writesST] at hp
    next => rfl

end Sys2Proof.Machine
end

section
/-! Faults (60_exceptions.md): which fault an instruction raises, what a faulting step leaves behind, and the fetch beyond the
program zone. -/

namespace Sys2Proof.Machine

/-! ## The execute stage -/

/-- The state a fault leaves: `status` alone changed, or, where a transfer is partly done, the registers loaded and the bytes
stored before it (60_exceptions.md R408). -/
inductive FaultLeaves (partly : Bool) (s : State) (f : Fault) : State → Prop where
  | unchanged : FaultLeaves partly s f { s with status := .faulted f }
  | transferred (v : Vector Byte 16) (m : Memory) (hpartly : partly = true) :
      FaultLeaves partly s f { s with v := v, mem := m, status := .faulted f }

theorem FaultLeaves.status {partly : Bool} {s t : State} {f : Fault} (h : FaultLeaves partly s f t) :
    t.status = .faulted f := by
  cases h <;> rfl

/-- A rejected address among those a storing instruction writes is its row of the fault table. -/
theorem faultAllowed_of_store {i : Instr} {s : State} {k : Nat} (hi : storesToMemory i = true)
    (hk : k < (storedBytes i s).length) (hrej : ¬(0x200 ≤ indexAddr s + k ∧ indexAddr s + k ≤ 0xE9F)) :
    faultAllowed i s (.addressOutOfRange (indexAddr s + k) .write) := by
  match i, hi with
  | .ldB x, _ => exact ⟨k, hk, hrej, rfl⟩
  | .ldMem x, _ =>
    rw [storedBytes_ldMem, length_regBytes] at hk
    exact ⟨k, Nat.le_of_lt_succ hk, hrej, rfl⟩

theorem partlyDoneOnFault_of_store {i : Instr} (hi : storesToMemory i = true) : partlyDoneOnFault i = true := by
  match i, hi with
  | .ldB _, _ | .ldMem _, _ => rfl

/-- The first rejected row of a sprite is its row of the fault table. -/
theorem faultAllowed_of_draw {s : State} {x y : RegIx} {n : RowCount} (hn : 0 < n.val)
    (hout : 0xEA0 < indexAddr s + n.val) :
    faultAllowed (.drw x y n) s (.addressOutOfRange (max (indexAddr s) 0xEA0) .read) := by
  have hrow : max (indexAddr s) 0xEA0 = indexAddr s + (0xEA0 - indexAddr s) := by omega
  have hrej : 0xEA0 ≤ indexAddr s + (0xEA0 - indexAddr s) := by omega
  rw [hrow]
  exact ⟨0xEA0 - indexAddr s, by omega, hrej, rfl⟩

/-- An instruction keeps the status, or raises a fault its row of the table allows. -/
def KeepsStatusOrFaults (i : Instr) (s t : State) : Prop :=
  t.status = s.status ∨ ∃ f, faultAllowed i s f ∧ FaultLeaves (partlyDoneOnFault i) s f t

theorem exec_store_status {i : Instr} (hi : storesToMemory i = true) (s : State) :
    ∃ t, exec i s = .next t ∧ KeepsStatusOrFaults i s t := by
  obtain ⟨m, -, -, he | ⟨k, hk, hrej, -, he⟩⟩ := exec_store_cases hi s
  · exact ⟨_, he, .inl rfl⟩
  · exact ⟨_, he, .inr ⟨_, faultAllowed_of_store hi hk hrej, .transferred s.v m (partlyDoneOnFault_of_store hi)⟩⟩

/-- The instructions of 60_exceptions.md R400 branch into the one that runs and the one that faults; no other faults. -/
theorem exec_status (i : Instr) (s : State) : ∃ t, exec i s = .next t ∧ KeepsStatusOrFaults i s t := by
  cases i with
  | ret =>
    by_cases h : 0 < s.sp.entries.val
    · exact ⟨_, exec_ret_of_pos h, .inl rfl⟩
    · exact ⟨_, exec_ret_of_zero (by omega), .inr ⟨_, rfl, .unchanged⟩⟩
  | call nnn =>
    by_cases h : s.sp.entries.val < 24
    · exact ⟨_, exec_call_of_lt nnn h, .inl rfl⟩
    · exact ⟨_, exec_call_of_full nnn (by omega), .inr ⟨_, rfl, .unchanged⟩⟩
  | addI x =>
    by_cases h : s.i.toNat + (readReg s x).toNat ≤ 0xFFFF
    · exact ⟨_, exec_addI_of_le x h, .inl rfl⟩
    · exact ⟨_, exec_addI_of_gt x (by omega), .inr ⟨_, rfl, .unchanged⟩⟩
  | skp x =>
    by_cases h : (readReg s x).toNat < 16
    · exact ⟨_, exec_skp_of_lt h, .inl rfl⟩
    · exact ⟨_, exec_skp_of_ge (by omega), .inr ⟨_, rfl, .unchanged⟩⟩
  | sknp x =>
    by_cases h : (readReg s x).toNat < 16
    · exact ⟨_, exec_sknp_of_lt h, .inl rfl⟩
    · exact ⟨_, exec_sknp_of_ge (by omega), .inr ⟨_, rfl, .unchanged⟩⟩
  | drw x y n =>
    by_cases h : n.val = 0 ∨ indexAddr s + n.val ≤ 0xEA0
    · obtain ⟨rows, hrows, -⟩ := readBytes_rows h
      exact ⟨_, exec_drw_of_rows x y hrows, .inl rfl⟩
    · have hn : 0 < n.val := by omega
      have hout : 0xEA0 < indexAddr s + n.val := by omega
      exact ⟨_, exec_drw_of_fault x y hn hout, .inr ⟨_, faultAllowed_of_draw hn hout, .unchanged⟩⟩
  | ldRegs x =>
    obtain ⟨v, -, he | ⟨k, hk, hrej, he⟩⟩ := exec_ldRegs_cases x s
    · exact ⟨_, he, .inl rfl⟩
    · exact ⟨_, he, .inr ⟨_, ⟨k, hk, hrej, rfl⟩, .transferred v s.mem rfl⟩⟩
  | ldB x | ldMem x => exact exec_store_status rfl s
  | ldKey x =>
    obtain ⟨hk, -⟩ | ⟨k, hk, -⟩ := firstKey_cases s
    · exact ⟨_, exec_ldKey_of_none x hk, .inl rfl⟩
    · exact ⟨_, exec_ldKey_of_some x hk, .inl rfl⟩
  | _ => exact ⟨_, rfl, .inl rfl⟩

/-- An instruction that faults from a running state raised an allowed fault. -/
theorem exec_fault {i : Instr} {s t : State} {f : Fault} (hrun : s.status = .running) (h : exec i s = .next t)
    (hf : t.status = .faulted f) : faultAllowed i s f ∧ FaultLeaves (partlyDoneOnFault i) s f t := by
  obtain ⟨u, hu, hstatus⟩ := exec_status i s
  rw [h] at hu
  cases hu
  obtain hkept | ⟨g, hallowed, hleaves⟩ := hstatus
  · rw [hkept, hrun] at hf; cases hf
  · cases hleaves.status.symm.trans hf
    exact ⟨hallowed, hleaves⟩

/-- Settles O10: an instruction that faults is in the fault's branch, which names the fault. -/
theorem faultKindsFollowTheTable : Obligations.FaultKindsFollowTheTable := by
  unfold Obligations.FaultKindsFollowTheTable
  intro i s t f hrun h hf
  exact (exec_fault hrun h hf).1

/-! ## The step -/

/-- A step that faults in the fetch or the decode changes `status` alone; one that faults in an instruction ends where the
instruction left it. -/
theorem step_fault {s t : State} {f : Fault} (hrun : s.status = .running) (h : step s = .next t)
    (hf : t.status = .faulted f) : FaultLeaves ((nextInstr s).any partlyDoneOnFault) s f t := by
  obtain ⟨-, g, rfl, -⟩ | ⟨i, hi, -, u, he, ⟨hgoes, rfl⟩ | ⟨-, rfl⟩⟩ := step_cases hrun h
  · cases hf; exact .unchanged
  · cases hgoes.symm.trans hf
  · rw [hi]; exact (exec_fault hrun he hf).2

/-- Settles O9: a fault leaves `status` changed, and loaded registers or stored bytes in the three transfers alone. -/
theorem faultsArePrecise : Obligations.FaultsArePrecise := by
  unfold Obligations.FaultsArePrecise
  intro s t f hrun h hf
  cases step_fault hrun h hf with
  | unchanged => exact ⟨rfl, rfl, ⟨rfl, rfl⟩, ⟨rfl, rfl⟩, ⟨rfl, rfl⟩, rfl, rfl, fun _ => rfl⟩
  | transferred v m hpartly =>
    exact ⟨rfl, rfl, ⟨rfl, rfl⟩, ⟨rfl, rfl⟩, ⟨rfl, rfl⟩, rfl, rfl, fun hwhole => by rw [hpartly] at hwhole; cases hwhole⟩

/-- The rejected byte of a fetch is the low one at the zone's last address, the high one beyond it. -/
theorem fetch_beyond {s : State} (h : 0xE9F ≤ s.pc.toNat) :
    fetch s = .error (.addressOutOfRange (max s.pc.toNat 0xEA0) .read) := by
  by_cases hlast : s.pc.toNat = 0xE9F
  · rw [show max s.pc.toNat 0xEA0 = s.pc.toNat + 1 by omega]
    exact fetch_of_low_error (readByte_ok (by omega)) (readByte_error (by omega))
  · rw [show max s.pc.toNat 0xEA0 = s.pc.toNat by omega]
    exact fetch_of_high_error (readByte_error (by omega))

/-- Settles O7: the fetch fails, and a failed fetch ends the step. -/
theorem fetchBeyondTheProgramZoneFaults : Obligations.FetchBeyondTheProgramZoneFaults := by
  unfold Obligations.FetchBeyondTheProgramZoneFaults
  exact fun s hrun hpc => step_of_fetch_error hrun (fetch_beyond hpc)

end Sys2Proof.Machine
end

section
/-! The host interface (60_exceptions.md R415): what its operations answer, and the invariant they keep. -/

namespace Sys2Proof.Machine

/-! ## The step as the host calls it -/

theorem hostStep_of_fault {s : State} {f : Fault} (h : step s = .fault f) : hostStep s = (s, .fault f) := by
  rw [hostStep, h]

theorem hostStep_of_next {s t : State} (h : step s = .next t) : hostStep s = (t, replyOf t.status) := by
  rw [hostStep, h]

/-- Settles O8: the host's step answers the outcome of `step`, and the reply is read off the status it leaves. -/
theorem faultedCoreOnlyReturnsItsFault : Obligations.FaultedCoreOnlyReturnsItsFault := by
  unfold Obligations.FaultedCoreOnlyReturnsItsFault
  refine ⟨fun s f hfault => ?_, fun s t _ h => ⟨fun hgoes => ?_, fun f hfault => ?_⟩⟩
  · have hstop := step_of_faulted hfault
    exact ⟨hstop, hostStep_of_fault hstop⟩
  · rw [hostStep_of_next h, hgoes, replyOf]
  · rw [hostStep_of_next h, hfault, replyOf]

/-! ## The latch and `dirty` -/

theorem setKey_of_lt {index : Nat} (s : State) (h : index < 16) :
    setKey index s = ({ s with keys := s.keys.set index true }, .ok) := by
  rw [setKey, dif_pos h]

theorem setKey_of_ge {index : Nat} (s : State) (h : 16 ≤ index) :
    setKey index s = (s, .fault (.invalidKeyIndex index)) := by
  rw [setKey, dif_neg (by omega)]

theorem clearKey_of_lt {index : Nat} (s : State) (h : index < 16) :
    clearKey index s = ({ s with keys := s.keys.set index false }, .ok) := by
  rw [clearKey, dif_pos h]

theorem clearKey_of_ge {index : Nat} (s : State) (h : 16 ≤ index) :
    clearKey index s = (s, .fault (.invalidKeyIndex index)) := by
  rw [clearKey, dif_neg (by omega)]

theorem getElem_keys_set (keys : Vector Bool 16) (k j : Fin 16) (b : Bool) :
    (keys.set k.val b)[j.val] = if j = k then b else keys[j.val] := by
  simp only [Vector.getElem_set, Fin.ext_iff, eq_comm]

/-- Settles O56: an index in range sets one element of the latch, one out of range is refused. -/
theorem hostWritesOnlyTheLatchAndDirty : Obligations.HostWritesOnlyTheLatchAndDirty := by
  unfold Obligations.HostWritesOnlyTheLatchAndDirty
  exact fun s => ⟨fun k => ⟨_, setKey_of_lt s k.isLt, rfl, fun j => getElem_keys_set s.keys k j true⟩,
    fun k => ⟨_, clearKey_of_lt s k.isLt, rfl, fun j => getElem_keys_set s.keys k j false⟩,
    fun index hout => ⟨setKey_of_ge s hout, clearKey_of_ge s hout⟩, rfl⟩

/-! ## The invariant -/

/-- SP is 0 after construction, so no return address is live (70_reset_and_hazards.md R450). -/
theorem CoreInv.construct (font : Vector Byte 80) (draws : Nat) :
    CoreInv (State.construct font ResetValues.zero draws) :=
  ⟨Memory.wf_empty font, by rw [construct_pc]; decide, fun k hk => absurd hk (Nat.not_lt_zero k)⟩

/-- The invariant reads nothing of the latch. -/
theorem CoreInv.withKeys {s : State} (hs : CoreInv s) (keys : Vector Bool 16) : CoreInv { s with keys := keys } := hs

theorem CoreInv.withMem {s : State} (hs : CoreInv s) {m : Memory} (hwf : s.mem.wf → m.wf) :
    CoreInv { s with mem := m } := by
  obtain ⟨hm, hpc, hlive⟩ := hs
  exact ⟨hwf hm, hpc, hlive⟩

theorem CoreInv.hostStep {s : State} (hs : CoreInv s) : CoreInv (hostStep s).1 := by
  rw [Machine.hostStep]
  cases h : step s with
  | next t => exact everyStepKeepsTheInvariant s t hs h
  | fault f => exact hs
  | refused r => exact hs

theorem CoreInv.setKey {s : State} (hs : CoreInv s) (index : Nat) : CoreInv (setKey index s).1 := by
  by_cases h : index < 16
  · rw [setKey_of_lt s h]; exact hs.withKeys _
  · rw [setKey_of_ge s (by omega)]; exact hs

theorem CoreInv.clearKey {s : State} (hs : CoreInv s) (index : Nat) : CoreInv (clearKey index s).1 := by
  by_cases h : index < 16
  · rw [clearKey_of_lt s h]; exact hs.withKeys _
  · rw [clearKey_of_ge s (by omega)]; exact hs

/-- A load that is not refused is a run of stores, which keeps the canonical form. -/
theorem CoreInv.loadProgram {s : State} (hs : CoreInv s) (bytes : List Byte) : CoreInv (loadProgram bytes s).1 := by
  unfold Machine.loadProgram
  split
  · exact hs
  · obtain ⟨m, o, he, -, hwf, -⟩ := storeBytes_cases 0x200 bytes s
    have hm : CoreInv { s with mem := m } := hs.withMem hwf
    rw [he]
    cases o <;> exact hm

theorem CoreInv.loadFromFile {s : State} (hs : CoreInv s) (path : String) (contents : Option (List Byte)) :
    CoreInv (loadFromFile path contents s).1 := by
  cases contents with
  | none => exact hs
  | some bytes => exact hs.loadProgram bytes

/-- Settles O14: operation by operation; a construction starts from the invariant, whatever the core before it. -/
theorem everyHostOperationKeepsTheInvariant : Obligations.EveryHostOperationKeepsTheInvariant := by
  unfold Obligations.EveryHostOperationKeepsTheInvariant
  intro op s hs
  cases op with
  | step => exact hs.hostStep
  | setKey index => exact hs.setKey index
  | clearKey index => exact hs.clearKey index
  | readFramebuffer | readDirty | clearDirty | inspect => exact hs
  | loadProgram bytes => exact hs.loadProgram bytes
  | loadFromFile path contents => exact hs.loadFromFile path contents
  | construct font => exact CoreInv.construct font s.draws

end Sys2Proof.Machine
end

section
/-! Construction and restart (70_reset_and_hazards.md R450): what the constructed core holds, and that a restart answers it
from any core. -/

namespace Sys2Proof.Machine

/-- Settles O13: a construction has the invariant, and `State.reset` is the one with the default FONT and nothing drawn. -/
theorem invariantHoldsAfterConstruction : Obligations.InvariantHoldsAfterConstruction := by
  unfold Obligations.InvariantHoldsAfterConstruction
  exact ⟨CoreInv.construct, CoreInv.construct defaultFont 0⟩

@[simp] theorem hostApply_construct (font : Vector Byte 80) (s : State) :
    hostApply (.construct font) s = (State.construct font ResetValues.zero s.draws, .ok) := rfl

/-- Construction lists no cell, so every readable byte is an unlisted one, whatever the other values. -/
theorem readByte_construct (font : Vector Byte 80) (r : ResetValues) (draws : Nat) {a : Nat} (hread : a ≤ 0xE9F) :
    readByte (State.construct font r draws) a = .ok (if h : a < 80 then font[a] else 0) := by
  rw [readByte_ok hread, construct_mem]
  rfl

/-- Settles O54: the restarted core is a construction, which starts from zeros and hands on the count of draws. -/
theorem restartResetsAllButTheRandomSource : Obligations.RestartResetsAllButTheRandomSource := by
  unfold Obligations.RestartResetsAllButTheRandomSource
  intro font s
  refine ⟨_, hostApply_construct font s, fun x => ?registers, rfl, rfl, rfl, fun k hk => ?stack, rfl, rfl,
    fun x _ y _ => pixel_blank x y, rfl, fun k => ?latch, rfl, fun a ha => ?font, fun a hlo hhi => ?zero, rfl⟩
  case registers => exact Vector.getElem_replicate x.isLt
  case stack => exact Vector.getElem_replicate hk
  case latch => exact Vector.getElem_replicate k.isLt
  case font => rw [readByte_construct _ _ _ (by omega), dif_pos ha]
  case zero => rw [readByte_construct _ _ _ hhi, dif_neg (by omega)]

/-- Settles O53: the reset state is what a restart with the default FONT answers from a core that has drawn nothing. -/
theorem resetLeavesTheStatedValues : Obligations.ResetLeavesTheStatedValues := by
  unfold Obligations.ResetLeavesTheStatedValues
  obtain ⟨t, hanswer, hregs, hpc, hi, hsp, hstack, hdt, hst, hfb, hdirty, hkeys, hstatus, hfont, hzero, -⟩ :=
    restartResetsAllButTheRandomSource defaultFont State.reset
  obtain rfl : State.reset = t := congrArg Prod.fst hanswer
  exact ⟨hregs, hpc, hi, hsp, hstack, hdt, hst, hfb, hdirty, hkeys, hstatus, hfont, hzero⟩

end Sys2Proof.Machine
end
